-- ==== Sys2Proof/Word.lean ====
section
/-! DEFINITION. The word types of the codec block and its two fixed-shape records: the byte of 20 R31, the widths of
10 R19 and 41 R107, a text of exactly four characters, and the ProtocolDataUnit of 10 R16. -/

namespace Sys2Proof

/-- The addressable unit, also one character (20 R31). -/
abbrev Byte := BitVec 8

/-- A 4-bit value: a hex digit or the length-field checksum (00 R3). -/
abbrev Nibble := BitVec 4

/-- A 12-bit LENID (00 R3, 30 R53). -/
abbrev Lenid := BitVec 12

/-- A 16-bit value: the frame checksum or the LENGTH field (00 R3). -/
abbrev Half := BitVec 16

/-- A text of exactly four characters, first character `c0` (30 R52): the form of `chkText` and `lengthText` in 10 R19. -/
structure Text4 where
  c0 : Byte
  c1 : Byte
  c2 : Byte
  c3 : Byte
  deriving DecidableEq, Repr

/-- The four characters as a sequence, in increasing index. -/
def Text4.toList (t : Text4) : List Byte := [t.c0, t.c1, t.c2, t.c3]

/-- The ProtocolDataUnit (10 R16): the operand of ENC and the result of DEC. -/
structure Pdu where
  /-- `Ver`, the protocol version. -/
  ver : Byte
  /-- `Addr`, the device address. -/
  addr : Byte
  /-- `Cid1`, the command group identifier. -/
  cid1 : Byte
  /-- `Cid2`, the command identifier, read as the response code RTN on decode. -/
  cid2 : Byte
  /-- `Info`, the raw payload. -/
  info : List Byte
  deriving DecidableEq, Repr

end Sys2Proof
end

