-- ==== Sys2Proof/Config.lean ====
section
/-! DEFINITION. What an implementation of the block fixes: MAX_IN_LEN of 00 R4. The other open parameter, PORT_MAP, carries
signals only and nothing of it is modelled. The spec leaves no value of a result open, so there is no free value. -/

namespace Sys2Proof

/-- A value of MAX_IN_LEN: `none` is unbounded, `some n` accepts sequences of at most `n` bytes. -/
abbrev InLenBound := Option Nat

/-- MAX_IN_LEN of this model: unbounded, as 00 R4 and decision D6 allow (log entry 4). -/
def Config.maxInLen : InLenBound := none

/-- Whether a sequence of `n` bytes is no longer than MAX_IN_LEN. -/
def InLenBound.admits (bound : InLenBound) (n : Nat) : Bool :=
  match bound with
  | none => true
  | some m => decide (n ≤ m)

end Sys2Proof
end

