-- ==== Sys2Proof/Syntax.lean ====
section
/-! DEFINITION. The operations of the codec block: the eleven rows of 30 R61, each with its operand record of 10 R19. -/

namespace Sys2Proof

/-- One operation with its operands, in the notation of 30 R64. -/
inductive Instr where
  /-- B2H (`byteToHexPair`), 40 R82. -/
  | b2h (b : Byte)
  /-- BS2H (`bytesToHex`), 40 R83. -/
  | bs2h (bytes : List Byte)
  /-- H2B (`hexPairToByte`), 40 R84. -/
  | h2b (hi lo : Byte)
  /-- HS2B (`hexToBytes`), 40 R85. -/
  | hs2b (hexText : List Byte)
  /-- FCHK (`CalcFrameChecksum`), 41 R102. -/
  | fchk (asciiBody : List Byte)
  /-- LCHK, the length-field checksum, 41 R104. -/
  | lchk (lenid : Lenid)
  /-- LPACK, the packing of the LENGTH field, 41 R105. -/
  | lpack (lenid : Lenid)
  /-- LUNPK, the verification of the LENGTH field, 41 R106. -/
  | lunpk (lengthText : Text4)
  /-- RTNCLS (`classifyResponseCode`), 42 R120. -/
  | rtncls (code : Byte)
  /-- ENC (`Encode`), 42 R121. -/
  | enc (pdu : Pdu)
  /-- DEC (`Decode`), 42 R122. -/
  | dec (frame : List Byte)
  deriving DecidableEq, Repr

end Sys2Proof
end

