-- ==== Sys2Proof/WellFormed.lean ====
section
/-! DEFINITION. Which operations the host can present: the widths of 10 R19 hold by type, and the input sequences of
DEC, FCHK, BS2H and HS2B are no longer than MAX_IN_LEN (00 R4, 70 R202). -/

namespace Sys2Proof

/-- The operation respects the bound on input sequences. 00 R4 names exactly DEC, FCHK, BS2H and HS2B; the `Info` of ENC is
bounded by ENC's own test (42 R121, log entry 4). -/
def Instr.wellFormed (bound : InLenBound) (i : Instr) : Bool :=
  match i with
  | .b2h _ => true
  | .bs2h bytes => bound.admits bytes.length
  | .h2b _ _ => true
  | .hs2b hexText => bound.admits hexText.length
  | .fchk asciiBody => bound.admits asciiBody.length
  | .lchk _ => true
  | .lpack _ => true
  | .lunpk _ => true
  | .rtncls _ => true
  | .enc _ => true
  | .dec frame => bound.admits frame.length

end Sys2Proof
end

