-- ==== Sys2Proof/Decode.lean ====
section
/-! DEFINITION. Operation select (30 R61, R62): what the host presents, the decoder from it to an operation, total and
rejecting by name, the encoder, and the host's hook over the words of spec/opcode_table.json. -/

namespace Sys2Proof

/-- The operand signals of 10 R19, one field per operand name of the table. An operation reads the operands of its own row
and no other (log entry 5). -/
structure Operands where
  b : Byte
  bytes : List Byte
  hi : Byte
  lo : Byte
  hexText : List Byte
  asciiBody : List Byte
  lenid : Lenid
  lengthText : Text4
  code : Byte
  pdu : Pdu
  frame : List Byte
  deriving DecidableEq, Repr

/-- Operands of zeros and empty sequences. -/
def Operands.blank : Operands where
  b := 0
  bytes := []
  hi := 0
  lo := 0
  hexText := []
  asciiBody := []
  lenid := 0
  lengthText := ⟨0, 0, 0, 0⟩
  code := 0
  pdu := ⟨0, 0, 0, 0, []⟩
  frame := []

/-- What the host presents to issue an operation: `op[3:0]` and the operand record (70 R202). -/
structure Request where
  op : BitVec 4
  operands : Operands
  deriving DecidableEq, Repr

/-- Why a request spells no operation. -/
inductive DecodeError where
  /-- `op` is one of the reserved codes 0xB to 0xF (30 R62). -/
  | reservedOp (op : BitVec 4)
  deriving DecidableEq, Repr

/-- The operation a request spells, by the table of 30 R61. -/
def decode (r : Request) : Except DecodeError Instr :=
  match r.op with
  | 0x0#4 => .ok (.b2h r.operands.b)
  | 0x1#4 => .ok (.bs2h r.operands.bytes)
  | 0x2#4 => .ok (.h2b r.operands.hi r.operands.lo)
  | 0x3#4 => .ok (.hs2b r.operands.hexText)
  | 0x4#4 => .ok (.fchk r.operands.asciiBody)
  | 0x5#4 => .ok (.lchk r.operands.lenid)
  | 0x6#4 => .ok (.lpack r.operands.lenid)
  | 0x7#4 => .ok (.lunpk r.operands.lengthText)
  | 0x8#4 => .ok (.rtncls r.operands.code)
  | 0x9#4 => .ok (.enc r.operands.pdu)
  | 0xA#4 => .ok (.dec r.operands.frame)
  | op => .error (.reservedOp op)

/-- The request that spells an operation: its code of 30 R61 and its operands, every operand of another row blank. -/
def encode (i : Instr) : Request :=
  match i with
  | .b2h b => ⟨0x0#4, { Operands.blank with b := b }⟩
  | .bs2h bytes => ⟨0x1#4, { Operands.blank with bytes := bytes }⟩
  | .h2b hi lo => ⟨0x2#4, { Operands.blank with hi := hi, lo := lo }⟩
  | .hs2b hexText => ⟨0x3#4, { Operands.blank with hexText := hexText }⟩
  | .fchk asciiBody => ⟨0x4#4, { Operands.blank with asciiBody := asciiBody }⟩
  | .lchk lenid => ⟨0x5#4, { Operands.blank with lenid := lenid }⟩
  | .lpack lenid => ⟨0x6#4, { Operands.blank with lenid := lenid }⟩
  | .lunpk lengthText => ⟨0x7#4, { Operands.blank with lengthText := lengthText }⟩
  | .rtncls code => ⟨0x8#4, { Operands.blank with code := code }⟩
  | .enc pdu => ⟨0x9#4, { Operands.blank with pdu := pdu }⟩
  | .dec frame => ⟨0xA#4, { Operands.blank with frame := frame }⟩

/-- The request an opcode-table word stands for: the table's mask is 0xF, so its bits 3:0 are `op`, and every operand, to
which the table gives no bits, is zero or empty (log entry 6). -/
def requestOfTableWord (w : Nat) : Request := ⟨BitVec.ofNat 4 w, Operands.blank⟩

/-- The operation this decoder reads from a word of spec/opcode_table.json. The row width `nbits` adds nothing: the
mask of every row is 0xF. -/
def decodeTableWord (_nbits w : Nat) : Option Instr :=
  match decode (requestOfTableWord w) with
  | .ok i => some i
  | .error _ => none

end Sys2Proof
end

