-- ==== Sys2Proof/Machine/State.lean ====
section
/-! DEFINITION. The state of the machine as plain data: the moves the host has still to make and the responses it has
collected. The block itself keeps nothing between operations (10 R10 to R12, R17, R20); its constant tables are in
Machine/Tables.lean. -/

namespace Sys2Proof.Machine

/-- The error kinds of 60 R151 (without `Ok`), in the order of their status codes. -/
inductive ErrKind where
  /-- RTN code 0x01 (60 R161). -/
  | versionError
  /-- RTN code 0x02 (60 R162). -/
  | checksumError
  /-- RTN code 0x03 (60 R163). -/
  | lengthChecksumError
  /-- RTN code 0x04 (60 R164). -/
  | invalidCid2
  /-- RTN code 0x05 (60 R165). -/
  | commandFormatError
  /-- RTN code 0x06 (60 R166). -/
  | dataInvalid
  /-- RTN code 0x07 (60 R167). -/
  | asciiError
  /-- RTN codes 0x80 to 0xEF (60 R168). -/
  | otherError
  /-- A character that must be a hex digit is none (60 R152). -/
  | invalidHexCharacter
  /-- A hex text of odd length (60 R153). -/
  | oddLengthHex
  /-- A frame of fewer than 9 bytes (60 R154). -/
  | frameTooShort
  /-- A wrong SOI or EOI (60 R155). -/
  | invalidDelimiters
  /-- CHKSUM is not the recomputed text (60 R156). -/
  | checksumMismatch
  /-- A region of fewer than 12 characters (60 R157). -/
  | malformedFrame
  /-- The carried LCHKSUM is not the recomputed one (60 R158). -/
  | lChecksumMismatch
  /-- Fewer than LENID characters after the header (60 R159). -/
  | frameLengthMismatch
  /-- More than 0x7FF bytes of Info (60 R160). -/
  | infoTooLarge
  deriving DecidableEq, Repr

/-- The result records of 10 R19, one constructor per operation. -/
inductive Result where
  | b2h (hi lo : Byte)
  | bs2h (hexText : List Byte)
  | h2b (b : Byte)
  | hs2b (bytes : List Byte)
  | fchk (chk : Half) (chkText : Text4)
  | lchk (lchksum : Nibble)
  | lpack (length16 : Half) (lengthText : Text4)
  | lunpk (lenid : Lenid)
  /-- Success of RTNCLS carries nothing. -/
  | rtncls
  | enc (frame : List Byte)
  | dec (pdu : Pdu)
  deriving DecidableEq, Repr

/-- How an operation ends: a result, or one error kind and nothing else (60 R150). On an error there is no result field
to read (93 U7, log entry 10). -/
inductive Response where
  | ok (result : Result)
  | error (kind : ErrKind)
  deriving DecidableEq, Repr

/-- A move of the host (70 R202). -/
inductive HostEvent where
  /-- Issue an operation. -/
  | issue (request : Request)
  /-- Reset the block between two operations (70 R190, R191). -/
  | reset
  deriving DecidableEq, Repr

/-- The machine stops with a fault: never. Every error of this hardware is the status of one operation, after which the block
is ready for the next (60 R150, R173, R174), so no operation raises a fault. -/
inductive Fault where
  deriving DecidableEq, Repr

/-- The model gives the host's move no meaning. -/
inductive Refusal where
  /-- Answered by an arm of `exec` whose operation has no meaning yet; no arm does. Safe: the run stops. -/
  | notModelled (mnemonic : String)
  /-- Answered by the fetch of a request whose `op` is 0xB to 0xF (30 R62, 93 U5). Safe: the run stops. -/
  | reservedOp (op : BitVec 4)
  /-- Answered by the fetch of an operation with an input sequence longer than MAX_IN_LEN (00 R4, 93 U8). Safe: the run
  stops. -/
  | inputTooLong
  deriving DecidableEq, Repr

/-- All that passes between the host and the block (log entry 1). -/
structure State where
  /-- The host's moves still to come, the next one first. -/
  pending : List HostEvent
  /-- The statuses and results the host has collected, the oldest first (70 R203). -/
  delivered : List Response
  deriving DecidableEq, Repr

/-- Right after reset the block is idle (70 R190): nothing is presented and nothing is delivered (10 R20). -/
def State.reset : State where
  pending := []
  delivered := []

end Sys2Proof.Machine
end

