-- ==== Sys2Proof/Machine/Tables.lean ====
section
/-! DEFINITION. The constant state of the block: HEXLUT (10 R13), RTNTAB (10 R14), the delimiters (10 R15) and the fixed
parameters of 00 R3. Nothing writes them (20 R39). -/

namespace Sys2Proof.Machine

/-- SOI, the first byte of a frame (10 R15). -/
def soi : Byte := 0x7E

/-- EOI, the last byte of a frame (10 R15). -/
def eoi : Byte := 0x0D

/-- HEADER_CHARS (00 R3): VER, ADDR, CID1, CID2 and LENGTH. -/
def headerChars : Nat := 12

/-- MIN_FRAME_BYTES, the decode length threshold (00 R3, 90 C2). -/
def minFrameBytes : Nat := 9

/-- MAX_INFO_BYTES (00 R3). -/
def maxInfoBytes : Nat := 0x7FF

/-- MAX_ENC_FRAME_BYTES (00 R3), the longest frame ENC produces. -/
def maxEncFrameBytes : Nat := 4112

/-- HEXLUT (10 R13): the ASCII codes of `0123456789ABCDEF`. -/
def hexLut : List Byte :=
  [0x30, 0x31, 0x32, 0x33, 0x34, 0x35, 0x36, 0x37, 0x38, 0x39, 0x41, 0x42, 0x43, 0x44, 0x45, 0x46]

/-- The classes of RTNTAB (10 R14). -/
inductive RtnClass where
  /-- "not an error". -/
  | ok
  /-- The mapped response error. -/
  | err (kind : ErrKind)
  /-- "treated as success". -/
  | passthrough
  deriving DecidableEq, Repr

/-- One row of RTNTAB: the codes `lo` to `hi` and their class. -/
structure RtnRow where
  lo : Byte
  hi : Byte
  cls : RtnClass
  deriving DecidableEq, Repr

/-- RTNTAB (10 R14), row by row. -/
def rtnTab : List RtnRow :=
  [⟨0x00, 0x00, .ok⟩,
   ⟨0x01, 0x01, .err .versionError⟩,
   ⟨0x02, 0x02, .err .checksumError⟩,
   ⟨0x03, 0x03, .err .lengthChecksumError⟩,
   ⟨0x04, 0x04, .err .invalidCid2⟩,
   ⟨0x05, 0x05, .err .commandFormatError⟩,
   ⟨0x06, 0x06, .err .dataInvalid⟩,
   ⟨0x07, 0x07, .err .asciiError⟩,
   ⟨0x08, 0x7F, .passthrough⟩,
   ⟨0x80, 0xEF, .err .otherError⟩,
   ⟨0xF0, 0xFF, .passthrough⟩]

/-- RTNTAB read at a code. Every code lies in a row; the source's row "any other value" is passthrough. -/
def rtnClass (code : Byte) : RtnClass :=
  match rtnTab.find? (fun row => row.lo ≤ code && code ≤ row.hi) with
  | some row => row.cls
  | none => .passthrough

end Sys2Proof.Machine
end

