-- ==== Sys2Proof/Machine/Ops.lean ====
section
/-! DEFINITION. The shared operations: reading a slice of an operand buffer (00 section 6, 20 R30), delivering a result,
ending an operation with an error kind (60 R150, R173), and reset between operations (70 R190). -/

namespace Sys2Proof.Machine

/-- The sub-sequence `s[a..b)` of 00 section 6. -/
def slice (s : List Byte) (a b : Nat) : List Byte := (s.drop a).take (b - a)

/-- The element `s[i]`. No rule reads past the end (42 R123); the byte 0 for an index past the end is never used
(log entry 18). -/
def charAt (s : List Byte) (i : Nat) : Byte := s.getD i 0

/-- The four characters of `s` from index `i` on, as a text of four. -/
def text4At (s : List Byte) (i : Nat) : Text4 :=
  ⟨charAt s i, charAt s (i + 1), charAt s (i + 2), charAt s (i + 3)⟩

/-- Hand a response to the host: it is complete, and the block keeps nothing (70 R203, 10 R12). -/
def deliver (r : Response) (s : State) : State :=
  { s with delivered := s.delivered ++ [r] }

/-- End an operation with `ok(result)` (60 R150). -/
def complete (v : Result) (s : State) : Host.Outcome State Fault Refusal :=
  .next (deliver (.ok v) s)

/-- TAKING AN EXCEPTION: end an operation with an error kind (60 R150). "Trap entry" is the delivery of the status: nothing is
saved, nothing in the block changes and control goes nowhere in the block (60 R173); there is no return from it (60 R174). -/
def raise (k : ErrKind) (s : State) : Host.Outcome State Fault Refusal :=
  .next (deliver (.error k) s)

/-- End an operation as its algorithm ended: with the result made from its value, or with the error kind a helper or
sub-operation raised, unchanged (60 R150). -/
def finish {α : Type} (mk : α → Result) (x : Except ErrKind α) (s : State) : Host.Outcome State Fault Refusal :=
  match x with
  | .ok a => complete (mk a) s
  | .error k => raise k s

/-- Reset between operations has no architectural effect (70 R190, 10 R20). -/
def resetBlock (s : State) : State := s

end Sys2Proof.Machine
end

