-- ==== Sys2Proof/Machine/Operands.lean ====
section
/-! DEFINITION. The fields of the operands and how they are assembled (30 R51 to R53, R57, 20 R32, R41): nibbles of a byte,
bytes of a 16-bit value, LENID and LCHKSUM of a LENGTH value. Everything is unsigned. -/

namespace Sys2Proof.Machine

/-- `b[7:4]`. -/
def hiNib (b : Byte) : Nibble := b.extractLsb' 4 4

/-- `b[3:0]`. -/
def loNib (b : Byte) : Nibble := b.extractLsb' 0 4

/-- `(h << 4) | l` (30 R57). -/
def joinNibs (h l : Nibble) : Byte := (h.setWidth 8 <<< 4) ||| l.setWidth 8

/-- `v[15:8]`. -/
def hiByte (v : Half) : Byte := v.extractLsb' 8 8

/-- `v[7:0]`. -/
def loByte (v : Half) : Byte := v.extractLsb' 0 8

/-- `(byte0 << 8) | byte1` (30 R57). -/
def joinBytes (b0 b1 : Byte) : Half := (b0.setWidth 16 <<< 8) ||| b1.setWidth 16

/-- LENID, bits 11:0 of a LENGTH value (30 R53). -/
def lenidOf (v : Half) : Lenid := v.extractLsb' 0 12

/-- LCHKSUM, bits 15:12 of a LENGTH value (30 R53). -/
def lchksumOf (v : Half) : Nibble := v.extractLsb' 12 4

/-- `(LCHKSUM << 12) | LENID` (30 R53). -/
def packLength (lchksum : Nibble) (lenid : Lenid) : Half :=
  (lchksum.setWidth 16 <<< 12) ||| lenid.setWidth 16

/-- `lenid[11:8]`. -/
def lenidHi (lenid : Lenid) : Nibble := lenid.extractLsb' 8 4

/-- `lenid[7:4]`. -/
def lenidMid (lenid : Lenid) : Nibble := lenid.extractLsb' 4 4

/-- `lenid[3:0]`. -/
def lenidLo (lenid : Lenid) : Nibble := lenid.extractLsb' 0 4

end Sys2Proof.Machine
end

