-- ==== Sys2Proof/Machine/HexCodec.lean ====
section
/-! DEFINITION. HexCodec (40_hexcodec.md): the helpers `nib2char` and `char2nib` and the operations B2H, BS2H, H2B, HS2B. -/

namespace Sys2Proof.Machine

/-- `nib2char(n)` (40 R80): HEXLUT read at a nibble. -/
def nib2char (n : Nibble) : Byte := hexLut.getD n.toNat 0

/-- `char2nib(c)` (40 R81). -/
def char2nib (c : Byte) : Except ErrKind Nibble :=
  if 0x30 ≤ c ∧ c ≤ 0x39 then .ok ((c - 0x30).setWidth 4)
  else if 0x41 ≤ c ∧ c ≤ 0x46 then .ok ((c - 0x37).setWidth 4)
  else if 0x61 ≤ c ∧ c ≤ 0x66 then .ok ((c - 0x57).setWidth 4)
  else .error .invalidHexCharacter

/-- `byteToHexPair` (40 R82): the high nibble's character and the low one's. -/
def byteToHexPair (b : Byte) : Byte × Byte := (nib2char (hiNib b), nib2char (loNib b))

/-- `bytesToHex` (40 R83): two characters a byte, order preserved. -/
def bytesToHex (bytes : List Byte) : List Byte :=
  match bytes with
  | [] => []
  | b :: rest => (byteToHexPair b).1 :: (byteToHexPair b).2 :: bytesToHex rest

/-- `hexPairToByte` (40 R84). -/
def hexPairToByte (hi lo : Byte) : Except ErrKind Byte :=
  match char2nib hi with
  | .error k => .error k
  | .ok h =>
    match char2nib lo with
    | .error k => .error k
    | .ok l => .ok (joinNibs h l)

/-- The loop of HS2B (40 R85): pairs from index 0 on, ending at the first bad one. A single last character makes the length
odd, which HS2B has tested before. -/
def decodePairs (hexText : List Byte) : Except ErrKind (List Byte) :=
  match hexText with
  | [] => .ok []
  | [_] => .error .oddLengthHex
  | hi :: lo :: rest =>
    match hexPairToByte hi lo with
    | .error k => .error k
    | .ok b =>
      match decodePairs rest with
      | .error k => .error k
      | .ok bs => .ok (b :: bs)

/-- `hexToBytes` (40 R85): the length is tested before any character. -/
def hexToBytes (hexText : List Byte) : Except ErrKind (List Byte) :=
  if hexText.length % 2 = 1 then .error .oddLengthHex else decodePairs hexText

/-- B2H (40 R82). -/
def execB2h (b : Byte) (s : State) : Host.Outcome State Fault Refusal :=
  complete (.b2h (byteToHexPair b).1 (byteToHexPair b).2) s

/-- BS2H (40 R83). -/
def execBs2h (bytes : List Byte) (s : State) : Host.Outcome State Fault Refusal :=
  complete (.bs2h (bytesToHex bytes)) s

/-- H2B (40 R84). -/
def execH2b (hi lo : Byte) (s : State) : Host.Outcome State Fault Refusal :=
  finish .h2b (hexPairToByte hi lo) s

/-- HS2B (40 R85). -/
def execHs2b (hexText : List Byte) (s : State) : Host.Outcome State Fault Refusal :=
  finish .hs2b (hexToBytes hexText) s

end Sys2Proof.Machine
end

