-- ==== Sys2Proof/Machine/Checksum.lean ====
section
/-! DEFINITION. ChecksumSuite (41_checksum.md): the 16-bit frame checksum, the 4-bit length-field checksum, and the operations
FCHK, LCHK, LPACK, LUNPK. -/

namespace Sys2Proof.Machine

/-- The 16-bit accumulator of `fchk16` after the whole text, from the value `acc` on (41 R100): natural wraparound. -/
def sum16 (acc : Half) (text : List Byte) : Half :=
  match text with
  | [] => acc
  | c :: rest => sum16 (acc + c.setWidth 16) rest

/-- `fchk16(text)` (41 R100): the two's complement of the byte sum. -/
def fchk16 (text : List Byte) : Half := ~~~(sum16 0 text) + 1

/-- `hex4(v)` (41 R101): four upper-case characters, big-endian. -/
def hex4 (v : Half) : Text4 :=
  ⟨(byteToHexPair (hiByte v)).1, (byteToHexPair (hiByte v)).2,
   (byteToHexPair (loByte v)).1, (byteToHexPair (loByte v)).2⟩

/-- `lchk(lenid)` (41 R103): the 4-bit two's complement of the nibble sum. -/
def lchk (lenid : Lenid) : Nibble := ~~~(lenidHi lenid + lenidMid lenid + lenidLo lenid) + 1

/-- The LENGTH value of a LENID (41 R105). -/
def length16 (lenid : Lenid) : Half := packLength (lchk lenid) lenid

/-- LUNPK's test of a LENGTH value (41 R106): the carried checksum against the recomputed one. -/
def verifyLength (v : Half) : Except ErrKind Lenid :=
  if lchksumOf v ≠ lchk (lenidOf v) then .error .lChecksumMismatch else .ok (lenidOf v)

/-- LUNPK's algorithm (41 R106). The four characters are decoded pairwise to two bytes first (20 R41). -/
def unpackLength (t : Text4) : Except ErrKind Lenid :=
  match hexPairToByte t.c0 t.c1 with
  | .error k => .error k
  | .ok b0 =>
    match hexPairToByte t.c2 t.c3 with
    | .error k => .error k
    | .ok b1 => verifyLength (joinBytes b0 b1)

/-- FCHK (41 R102). -/
def execFchk (asciiBody : List Byte) (s : State) : Host.Outcome State Fault Refusal :=
  complete (.fchk (fchk16 asciiBody) (hex4 (fchk16 asciiBody))) s

/-- LCHK (41 R104). -/
def execLchk (lenid : Lenid) (s : State) : Host.Outcome State Fault Refusal :=
  complete (.lchk (lchk lenid)) s

/-- LPACK (41 R105). -/
def execLpack (lenid : Lenid) (s : State) : Host.Outcome State Fault Refusal :=
  complete (.lpack (length16 lenid) (hex4 (length16 lenid))) s

/-- LUNPK (41 R106). -/
def execLunpk (lengthText : Text4) (s : State) : Host.Outcome State Fault Refusal :=
  finish .lunpk (unpackLength lengthText) s

end Sys2Proof.Machine
end

