-- ==== Sys2Proof/Machine/FrameCodec.lean ====
section
/-! DEFINITION. FrameCodec (42_framecodec.md): the operations RTNCLS, ENC and DEC. -/

namespace Sys2Proof.Machine

/-- `classifyResponseCode` (42 R120), by RTNTAB: success for `Ok` and for the passthrough codes. -/
def classifyResponseCode (code : Byte) : Except ErrKind Unit :=
  match rtnClass code with
  | .ok => .ok ()
  | .passthrough => .ok ()
  | .err k => .error k

/-- The header characters of a PDU (42 R121): VER, ADDR, CID1, CID2. -/
def headerText (p : Pdu) : List Byte := bytesToHex [p.ver, p.addr, p.cid1, p.cid2]

/-- The checksum-covered region of a PDU (42 R121, 30 R50): header, LENGTH, INFO, with LENID the number of INFO characters. -/
def frameBody (p : Pdu) : List Byte :=
  headerText p ++ (hex4 (length16 (BitVec.ofNat 12 (bytesToHex p.info).length))).toList ++ bytesToHex p.info

/-- A region between its delimiters, with its CHKSUM (30 R50). -/
def wrapRegion (region : List Byte) : List Byte :=
  [soi] ++ region ++ (hex4 (fchk16 region)).toList ++ [eoi]

/-- ENC's algorithm (42 R121): the size of Info is tested before any output is formed (decision D14). -/
def encodeFrame (p : Pdu) : Except ErrKind (List Byte) :=
  if maxInfoBytes < p.info.length then .error .infoTooLarge else .ok (wrapRegion (frameBody p))

/-- Step 9 of DEC (42 R122, R126): the INFO characters. What follows them is ignored (42 R127). -/
def decodeInfo (region : List Byte) (lenid : Lenid) : Except ErrKind (List Byte) :=
  if 0 < lenid.toNat then
    if region.length < headerChars + lenid.toNat then .error .frameLengthMismatch
    else hexToBytes (slice region headerChars (headerChars + lenid.toNat))
  else .ok []

/-- Steps 8 to 10 of DEC (42 R122), with the four header bytes decoded. -/
def decodeBody (region : List Byte) (ver addr cid1 cid2 : Byte) : Except ErrKind Pdu :=
  match unpackLength (text4At region 8) with
  | .error k => .error k
  | .ok lenid =>
    match decodeInfo region lenid with
    | .error k => .error k
    | .ok info => .ok ⟨ver, addr, cid1, cid2, info⟩

/-- The pair of region characters at index `i` and `i + 1` (42 R123). -/
def decodeField (region : List Byte) (i : Nat) : Except ErrKind Byte :=
  hexPairToByte (charAt region i) (charAt region (i + 1))

/-- Steps 6 to 10 of DEC (42 R122): all four header bytes are decoded before `Cid2` is classified, and it is classified on
every frame (42 R125). -/
def decodeRegion (region : List Byte) : Except ErrKind Pdu :=
  match decodeField region 0 with
  | .error k => .error k
  | .ok ver =>
    match decodeField region 2 with
    | .error k => .error k
    | .ok addr =>
      match decodeField region 4 with
      | .error k => .error k
      | .ok cid1 =>
        match decodeField region 6 with
        | .error k => .error k
        | .ok cid2 =>
          match classifyResponseCode cid2 with
          | .error k => .error k
          | .ok _ => decodeBody region ver addr cid1 cid2

/-- The region of a frame, `F[1..n-5)` (42 R122 step 3). -/
def frameRegion (frame : List Byte) : List Byte := slice frame 1 (frame.length - 5)

/-- The received CHKSUM characters, `F[n-5..n-1)` (42 R122 step 3). -/
def frameChksum (frame : List Byte) : List Byte := slice frame (frame.length - 5) (frame.length - 1)

/-- DEC's algorithm (42 R122), in the order of its steps (60 R170). The checksum is compared character by character
(42 R124). -/
def decodeFrame (frame : List Byte) : Except ErrKind Pdu :=
  if frame.length < minFrameBytes then .error .frameTooShort
  else if charAt frame 0 ≠ soi ∨ charAt frame (frame.length - 1) ≠ eoi then .error .invalidDelimiters
  else if (hex4 (fchk16 (frameRegion frame))).toList ≠ frameChksum frame then .error .checksumMismatch
  else if (frameRegion frame).length < headerChars then .error .malformedFrame
  else decodeRegion (frameRegion frame)

/-- RTNCLS (42 R120). -/
def execRtncls (code : Byte) (s : State) : Host.Outcome State Fault Refusal :=
  finish (fun _ => .rtncls) (classifyResponseCode code) s

/-- ENC (42 R121). -/
def execEnc (pdu : Pdu) (s : State) : Host.Outcome State Fault Refusal :=
  finish .enc (encodeFrame pdu) s

/-- DEC (42 R122). -/
def execDec (frame : List Byte) (s : State) : Host.Outcome State Fault Refusal :=
  finish .dec (decodeFrame frame) s

end Sys2Proof.Machine
end

