-- ==== Sys2Proof/Machine/Dispatch.lean ====
section
/-! DEFINITION. One arm per operation: the meaning of each row of 30 R61. -/

namespace Sys2Proof.Machine

def exec (i : Instr) (s : State) : Host.Outcome State Fault Refusal :=
  match i with
  | .b2h b => Sys2Proof.Machine.execB2h b s
  | .bs2h bytes => Sys2Proof.Machine.execBs2h bytes s
  | .h2b hi lo => Sys2Proof.Machine.execH2b hi lo s
  | .hs2b hexText => Sys2Proof.Machine.execHs2b hexText s
  | .fchk asciiBody => Sys2Proof.Machine.execFchk asciiBody s
  | .lchk lenid => Sys2Proof.Machine.execLchk lenid s
  | .lpack lenid => Sys2Proof.Machine.execLpack lenid s
  | .lunpk lengthText => Sys2Proof.Machine.execLunpk lengthText s
  | .rtncls code => Sys2Proof.Machine.execRtncls code s
  | .enc pdu => Sys2Proof.Machine.execEnc pdu s
  | .dec frame => Sys2Proof.Machine.execDec frame s

end Sys2Proof.Machine
end

