-- ==== Sys2Proof/Machine/Fetch.lean ====
section
/-! DEFINITION. What the block does with the host's next move (70 R202): nothing while it is idle, a reset, a refusal, or an
operation to run. -/

namespace Sys2Proof.Machine

/-- The host's next move as the block sees it. -/
inductive Fetched where
  /-- The host has no move: the block stays idle. -/
  | idle
  /-- A reset, and the state after it. -/
  | wasReset (s : State)
  /-- A request to which the spec gives no meaning. -/
  | refuse (r : Refusal)
  /-- An operation, and the state in which it runs. -/
  | run (i : Instr) (s : State)
  deriving DecidableEq, Repr

/-- Decode a request and test it against MAX_IN_LEN (30 R61, R62, 00 R4). -/
def accept (bound : InLenBound) (r : Request) : Except Refusal Instr :=
  match decode r with
  | .error (.reservedOp op) => .error (.reservedOp op)
  | .ok i => if i.wellFormed bound then .ok i else .error .inputTooLong

/-- Take the host's next move. -/
def fetchWith (bound : InLenBound) (s : State) : Fetched :=
  match s.pending with
  | [] => .idle
  | .reset :: rest => .wasReset (resetBlock { s with pending := rest })
  | .issue r :: rest =>
    match accept bound r with
    | .error e => .refuse e
    | .ok i => .run i { s with pending := rest }

/-- Present a request as the host's very next move. -/
def presentNext (r : Request) (s : State) : State := { s with pending := .issue r :: s.pending }

end Sys2Proof.Machine
end

