-- ==== Sys2Proof/Machine/Step.lean ====
section
/-! DEFINITION. One step: the host's next move, carried out whole (00 R5). `stepWith` takes MAX_IN_LEN as the argument 00 R4
makes it; `step` is the model at its unbounded value. -/

namespace Sys2Proof.Machine

/-- One step of a block whose MAX_IN_LEN is `bound`. A step with no move of the host leaves everything as it is
(log entry 7). -/
def stepWith (bound : InLenBound) (s : State) : Host.Outcome State Fault Refusal :=
  match fetchWith bound s with
  | .idle => .next s
  | .wasReset t => .next t
  | .refuse r => .refused r
  | .run i t => exec i t

/-- One step of the machine. -/
def step (s : State) : Host.Outcome State Fault Refusal := stepWith Config.maxInLen s

/-- `s` with the opcode-table word `w` issued as the host's very next move, its operands zero or empty (log entry 6). -/
def State.withFetchWord (s : State) (_nbits w : Nat) : State := presentNext (requestOfTableWord w) s

end Sys2Proof.Machine
end

