-- ==== Sys2Proof/Machine/Flags.lean ====
section
/-! DEFINITION. The only condition output: the status of an operation and its 5-bit code (10 R12, 60 R151). There are no flags;
every operation's "flags written" is none. The numbers are the spec's own choice (decision D4). -/

namespace Sys2Proof.Machine

/-- The status of a completed operation: success, or its error kind (10 R12). -/
inductive Status where
  | ok
  | failed (kind : ErrKind)
  deriving DecidableEq, Repr

/-- The status a response carries. -/
def statusOf (r : Response) : Status :=
  match r with
  | .ok _ => .ok
  | .error k => .failed k

/-- `status[4:0]` (60 R151). -/
def statusCode (st : Status) : BitVec 5 :=
  match st with
  | .ok => 0x00
  | .failed .versionError => 0x01
  | .failed .checksumError => 0x02
  | .failed .lengthChecksumError => 0x03
  | .failed .invalidCid2 => 0x04
  | .failed .commandFormatError => 0x05
  | .failed .dataInvalid => 0x06
  | .failed .asciiError => 0x07
  | .failed .otherError => 0x08
  | .failed .invalidHexCharacter => 0x10
  | .failed .oddLengthHex => 0x11
  | .failed .frameTooShort => 0x12
  | .failed .invalidDelimiters => 0x13
  | .failed .checksumMismatch => 0x14
  | .failed .malformedFrame => 0x15
  | .failed .lChecksumMismatch => 0x16
  | .failed .frameLengthMismatch => 0x17
  | .failed .infoTooLarge => 0x18

end Sys2Proof.Machine
end

