-- ==== Sys2Proof/Safety.lean ====
section
/-! DEFINITION. The words claims are made in: what an operation's answer is, the spec's rules over natural numbers and frame
indices (written apart from the machine's own bit-vector functions), the raise matrix and result shapes, and the two
invariants of a run. -/

namespace Sys2Proof.Safety

open Sys2Proof.Machine

/-- The state after an operation that ends with the response `r`: the response is delivered, all else is as before
(60 R150, 10 R10, R12). -/
def after (s : State) (r : Response) : State := { pending := s.pending, delivered := s.delivered ++ [r] }

/-- The response an operation ends with in a state, for tests. -/
def answerOf (i : Instr) (s : State) : Option Response :=
  match exec i s with
  | .next t => t.delivered.getLast?
  | .fault _ => none
  | .refused _ => none

/-! ### Characters and numbers -/

/-- The character of a digit `0` to `15`: HEXLUT at that index (10 R13, 40 R80). -/
def hexChar (d : Nat) : Byte := hexLut.getD d 0

/-- The two characters of an 8-bit value, high nibble first (30 R51). -/
def twoChars (v : Nat) : List Byte := [hexChar (v / 16), hexChar (v % 16)]

/-- The four characters of a 16-bit value, big-endian (30 R52). -/
def fourChars (v : Nat) : Text4 :=
  ⟨hexChar (v / 4096), hexChar (v / 256 % 16), hexChar (v / 16 % 16), hexChar (v % 16)⟩

/-- The value of a character as a hex digit, none outside the 22 accepted ones (40 R81). -/
def digitOf (c : Byte) : Option Nat :=
  if 48 ≤ c.toNat ∧ c.toNat ≤ 57 then some (c.toNat - 48)
  else if 65 ≤ c.toNat ∧ c.toNat ≤ 70 then some (c.toNat - 55)
  else if 97 ≤ c.toNat ∧ c.toNat ≤ 102 then some (c.toNat - 87)
  else none

/-- One of the 16 characters encoding produces (40 R80). -/
def isUpperHex (c : Byte) : Bool := hexLut.contains c

/-- The upper-case form of a character: `a` to `f` become `A` to `F` (40 R86). -/
def upper (c : Byte) : Byte := if 97 ≤ c.toNat ∧ c.toNat ≤ 102 then c - 32 else c

/-- The value of the hex pair at index `i`, none where a character is missing or is no hex digit (40 R84). -/
def pairAt (s : List Byte) (i : Nat) : Option Nat :=
  match s[i]?, s[i + 1]? with
  | some hi, some lo =>
    match digitOf hi, digitOf lo with
    | some h, some l => some (16 * h + l)
    | _, _ => none
  | _, _ => none

/-- The 16-bit value of the four characters at index `i`, high-order byte first (30 R57). -/
def fourAt (s : List Byte) (i : Nat) : Option Nat :=
  match pairAt s i, pairAt s (i + 2) with
  | some a, some b => some (256 * a + b)
  | _, _ => none

/-- The bytes of the `k` hex pairs from index `i` on (40 R85). -/
def bytesAt (s : List Byte) (i : Nat) (k : Nat) : Option (List Byte) :=
  match k with
  | 0 => some []
  | n + 1 =>
    match pairAt s i, bytesAt s (i + 2) n with
    | some v, some vs => some (BitVec.ofNat 8 v :: vs)
    | _, _ => none

/-! ### Checksums as numbers -/

/-- The sum of the unsigned byte values of a text. -/
def byteSum (text : List Byte) : Nat := (text.map BitVec.toNat).sum

/-- `(2^16 - (sum mod 2^16)) mod 2^16` (41 R100). -/
def fchkNat (text : List Byte) : Nat := (65536 - byteSum text % 65536) % 65536

/-- The sum of the three nibbles of a LENID. -/
def nibbleSum (lenid : Nat) : Nat := lenid / 256 + lenid / 16 % 16 + lenid % 16

/-- `(16 - s) mod 16` with `s` the nibble sum mod 16 (41 R103). -/
def lchkNat (lenid : Nat) : Nat := (16 - nibbleSum lenid % 16) % 16

/-- LCHKSUM in bits 15:12, LENID in bits 11:0 (30 R53). -/
def lengthNat (lenid : Nat) : Nat := 4096 * lchkNat lenid + lenid

/-! ### Response codes -/

/-- The response error of a code, in the order of the pseudocode of 42 R120. -/
def rtnErr (code : Nat) : Option ErrKind :=
  if code = 0x00 then none
  else if code = 0x01 then some .versionError
  else if code = 0x02 then some .checksumError
  else if code = 0x03 then some .lengthChecksumError
  else if code = 0x04 then some .invalidCid2
  else if code = 0x05 then some .commandFormatError
  else if code = 0x06 then some .dataInvalid
  else if code = 0x07 then some .asciiError
  else if 0x80 ≤ code ∧ code ≤ 0xEF then some .otherError
  else none

/-- The eight response errors of 60 R161 to R168. -/
def isResponseError (k : ErrKind) : Bool :=
  [ErrKind.versionError, .checksumError, .lengthChecksumError, .invalidCid2, .commandFormatError, .dataInvalid, .asciiError,
   .otherError].contains k

/-! ### Frames -/

/-- The characters of a byte sequence as hex pairs in order (40 R83). -/
def hexText (bytes : List Byte) : List Byte := bytes.flatMap (fun b => twoChars b.toNat)

/-- The checksum-covered region of a PDU (30 R50): VER, ADDR, CID1, CID2, LENGTH, INFO. -/
def bodyOf (p : Pdu) : List Byte :=
  twoChars p.ver.toNat ++ twoChars p.addr.toNat ++ twoChars p.cid1.toNat ++ twoChars p.cid2.toNat
    ++ (fourChars (lengthNat (2 * p.info.length))).toList ++ hexText p.info

/-- A region as a frame: SOI, the region, its CHKSUM, EOI (30 R50). -/
def frameOf (region : List Byte) : List Byte :=
  [0x7E] ++ region ++ (fourChars (fchkNat region)).toList ++ [0x0D]

/-- `F[1..n-5)` (42 R122). -/
def regionOf (frame : List Byte) : List Byte := (frame.drop 1).take (frame.length - 6)

/-- Steps 1 and 2 of DEC pass: at least 9 bytes, SOI first, EOI last (42 R122). -/
def delimited (frame : List Byte) : Bool :=
  decide (9 ≤ frame.length) && frame[0]? == some 0x7E && frame[frame.length - 1]? == some 0x0D

/-- Step 4 of DEC passes: the four characters before EOI are the checksum text of the region (42 R122, R124). -/
def chksumGood (frame : List Byte) : Bool :=
  (frame.drop (frame.length - 5)).take 4 == (fourChars (fchkNat (regionOf frame))).toList

/-- Steps 1 to 5 of DEC pass; a region of 12 characters is a frame of 18 bytes. -/
def reachesHeader (frame : List Byte) : Bool := delimited frame && chksumGood frame && decide (18 ≤ frame.length)

/-- The four header bytes at the frame indices of 30 R50. -/
def headerOf (frame : List Byte) : Option (Nat × Nat × Nat × Nat) :=
  match pairAt frame 1, pairAt frame 3, pairAt frame 5, pairAt frame 7 with
  | some v, some a, some c, some d => some (v, a, c, d)
  | _, _, _, _ => none

/-- Steps 1 to 7 of DEC pass. -/
def reachesLength (frame : List Byte) : Bool :=
  reachesHeader frame &&
    match headerOf frame with
    | some (_, _, _, cid2) => rtnErr cid2 == none
    | none => false

/-- Steps 1 to 8 of DEC pass, and the LENGTH field carries `lenid`. -/
def reachesInfo (frame : List Byte) (lenid : Nat) : Bool :=
  reachesLength frame && decide (lenid < 4096) && fourAt frame 9 == some (lengthNat lenid)

/-- The region holds `lenid` characters after the header (42 R126). -/
def infoFits (frame : List Byte) (lenid : Nat) : Bool := decide (12 + lenid ≤ frame.length - 6)

/-- Step 9 of DEC passes with this Info: none for LENID 0, else the bytes of the LENID characters at frame index 13 on. -/
def infoIs (frame : List Byte) (lenid : Nat) (info : List Byte) : Bool :=
  if lenid = 0 then info == []
  else infoFits frame lenid && decide (lenid % 2 = 0) && bytesAt frame 13 (lenid / 2) == some info

/-- All ten steps of DEC pass, and the PDU is `p` (42 R122). -/
def decodesTo (frame : List Byte) (p : Pdu) (lenid : Nat) : Bool :=
  reachesInfo frame lenid && headerOf frame == some (p.ver.toNat, p.addr.toNat, p.cid1.toNat, p.cid2.toNat)
    && infoIs frame lenid p.info

/-! ### Shapes of answers -/

/-- The raise matrix of 60 R169. -/
def mayRaise (i : Instr) : List ErrKind :=
  match i with
  | .b2h _ => []
  | .bs2h _ => []
  | .h2b _ _ => [.invalidHexCharacter]
  | .hs2b _ => [.oddLengthHex, .invalidHexCharacter]
  | .fchk _ => []
  | .lchk _ => []
  | .lpack _ => []
  | .lunpk _ => [.invalidHexCharacter, .lChecksumMismatch]
  | .rtncls _ => [.versionError, .checksumError, .lengthChecksumError, .invalidCid2, .commandFormatError, .dataInvalid,
      .asciiError, .otherError]
  | .enc _ => [.infoTooLarge]
  | .dec _ => [.frameTooShort, .invalidDelimiters, .checksumMismatch, .malformedFrame, .invalidHexCharacter, .versionError,
      .checksumError, .lengthChecksumError, .invalidCid2, .commandFormatError, .dataInvalid, .asciiError, .otherError,
      .lChecksumMismatch, .frameLengthMismatch, .oddLengthHex]

/-- The result is of the operation's row of 10 R19, with the length the row states. -/
def resultFits (i : Instr) (v : Result) : Bool :=
  match i, v with
  | .b2h _, .b2h _ _ => true
  | .bs2h bytes, .bs2h t => decide (t.length = 2 * bytes.length)
  | .h2b _ _, .h2b _ => true
  | .hs2b t, .hs2b bytes => decide (t.length = 2 * bytes.length)
  | .fchk _, .fchk _ _ => true
  | .lchk _, .lchk _ => true
  | .lpack _, .lpack _ _ => true
  | .lunpk _, .lunpk _ => true
  | .rtncls _, .rtncls => true
  | .enc p, .enc frame => decide (frame.length = 18 + 2 * p.info.length)
  | .dec _, .dec _ => true
  | _, _ => false

/-- The host may hold this response (10 R19, 30 R50, R55, 42 R126): texts are upper-case hex digits of the length and value
their rules give, a frame is delimited and of legal length with a good checksum, a PDU has at most 0x7FF bytes of Info and a `Cid2` that
classified as success. -/
def soundResponse (r : Response) : Bool :=
  match r with
  | .error _ => true
  | .ok (.b2h hi lo) => isUpperHex hi && isUpperHex lo
  | .ok (.bs2h t) => t.all isUpperHex && decide (t.length % 2 = 0)
  | .ok (.h2b _) => true
  | .ok (.hs2b _) => true
  | .ok (.fchk chk t) => t == fourChars chk.toNat
  | .ok (.lchk _) => true
  | .ok (.lpack v t) => t == fourChars v.toNat && decide (v.toNat = lengthNat (v.toNat % 4096))
  | .ok (.lunpk _) => true
  | .ok .rtncls => true
  | .ok (.enc frame) =>
    reachesHeader frame && decide (frame.length % 2 = 0) && decide (frame.length ≤ maxEncFrameBytes)
      && (regionOf frame).all isUpperHex
  | .ok (.dec p) => decide (p.info.length ≤ 0x7FF) && rtnErr p.cid2.toNat == none

/-- Every response the host holds is sound. -/
def DeliveredSound (s : State) : Prop := ∀ r ∈ s.delivered, soundResponse r = true

/-- The host's obligation of 70 R202 for one move: a legal `op` and, for DEC, FCHK, BS2H and HS2B, a sequence within the bound
(that the Info of ENC is not bounded is log entry 4). -/
def legalEvent (bound : InLenBound) (e : HostEvent) : Bool :=
  match e with
  | .reset => true
  | .issue r =>
    decide (r.op.toNat ≤ 10) &&
      match decode r with
      | .ok i => i.wellFormed bound
      | .error _ => false

/-- A safe run lies ahead: every move the host has still to make is legal, so none is refused. -/
def PendingLegal (bound : InLenBound) (s : State) : Prop := ∀ e ∈ s.pending, legalEvent bound e = true

end Sys2Proof.Safety
end

