-- ==== Sys2Proof/Certificates/Slice0/Obligations.lean ====
section
/-! DEFINITION. The statements for the provers, in the words of Safety. -/

open Sys2Proof Sys2Proof.Machine Sys2Proof.Safety

/-! ### The machine -/

/-- 70 R190, R192, 10 R20: after reset the block is idle, and a step with no move of the host changes nothing. The empty lists
and the idle step are the model's choice (log entries 1 and 7). -/
def Obligations.ResetLeavesTheBlockIdle : Prop :=
  State.reset.pending = [] ∧ State.reset.delivered = [] ∧
    ∀ (bound : InLenBound) (s : State), s.pending = [] → stepWith bound s = .next s

/-- 70 R190 (decision D10): a reset between operations takes the move and changes nothing else. -/
def Obligations.ResetMoveHasNoEffect : Prop :=
  ∀ (bound : InLenBound) (s : State) (rest : List HostEvent), s.pending = .reset :: rest →
    stepWith bound s = .next { pending := rest, delivered := s.delivered }

/-- 00 R5, 70 R202: the next request, decoded to an operation the host may present, is run by `exec` in the state without
that request. -/
def Obligations.StepRunsTheDecodedOperation : Prop :=
  ∀ (s : State) (r : Request) (rest : List HostEvent) (i : Instr),
    s.pending = .issue r :: rest → decode r = .ok i → i.wellFormed Config.maxInLen = true →
    step s = exec i { pending := rest, delivered := s.delivered }

/-- 00 R4, 93 U8 (decision D6): with MAX_IN_LEN n, an operation of DEC, FCHK, BS2H or HS2B on a longer sequence is refused,
and every other operation runs. That only these four are bounded is read from R4 (log entry 4). -/
def Obligations.InputsBeyondMaxInLenAreRefused : Prop :=
  ∀ (n : Nat) (s : State) (r : Request) (rest : List HostEvent) (i : Instr),
    s.pending = .issue r :: rest → decode r = .ok i →
    ((∃ t : List Byte, (i = .dec t ∨ i = .fchk t ∨ i = .bs2h t ∨ i = .hs2b t) ∧ n < t.length) →
      stepWith (some n) s = .refused .inputTooLong) ∧
    ((¬ ∃ t : List Byte, (i = .dec t ∨ i = .fchk t ∨ i = .bs2h t ∨ i = .hs2b t) ∧ n < t.length) →
      stepWith (some n) s = exec i { pending := rest, delivered := s.delivered })

/-- 30 R62 (decision D21): a request with `op` 0xB to 0xF is refused, whatever its operands. -/
def Obligations.ReservedOpCodesAreRefused : Prop :=
  ∀ (bound : InLenBound) (s : State) (r : Request) (rest : List HostEvent),
    s.pending = .issue r :: rest → 0xB ≤ r.op.toNat → stepWith bound s = .refused (.reservedOp r.op)

/-- 20 R37, 70 R203: a step takes the host's moves in order, one at a time; an operation adds one response at the end of what
the host holds, a reset adds none, and nothing held is changed. The first case, a step with no move of the host that answers
the same state, is no rule of the spec: it is the model's choice (log entry 7). -/
def Obligations.StepTakesOneMoveInOrder : Prop :=
  ∀ (bound : InLenBound) (s t : State), stepWith bound s = .next t →
    (s.pending = [] ∧ t = s) ∨
    (∃ rest, s.pending = .reset :: rest ∧ t.pending = rest ∧ t.delivered = s.delivered) ∨
    (∃ q rest r, s.pending = .issue q :: rest ∧ t.pending = rest ∧ t.delivered = s.delivered ++ [r])

/-- 30 R62, 60 R172 to R174, R150: `step` is refused only for a request with a reserved `op`, and never stops in a fault. Both
rest on choices of the model: `step` takes MAX_IN_LEN, which 00 R4 leaves open, as unbounded (log entry 4; a finite bound
also refuses long inputs, `InputsBeyondMaxInLenAreRefused`); an error kind is delivered in a next state, so `Fault` has no
constructor and the clause on faults holds by its type (log entry 9). -/
def Obligations.StepStopsOnlyOnReservedOpCodes : Prop :=
  ∀ s : State, (∀ f, step s ≠ .fault f) ∧
    ∀ e, step s = .refused e → ∃ r rest, s.pending = .issue r :: rest ∧ 0xB ≤ r.op.toNat ∧ e = .reservedOp r.op

/-- 60 R150, 10 R19: every operation ends in exactly one response, delivered last, with all else unchanged; a result is of its
operation's row, with the length the row states. -/
def Obligations.EveryOperationDeliversOneResponse : Prop :=
  ∀ (i : Instr) (s : State), ∃ r, exec i s = .next { pending := s.pending, delivered := s.delivered ++ [r] } ∧
    ∀ v, r = .ok v → resultFits i v = true

/-- 10 R10, 20 R37: the response depends on the operation and its operands alone. -/
def Obligations.ResponseDependsOnOperandsAlone : Prop :=
  ∀ i : Instr, ∃ r, ∀ s : State, exec i s = .next (after s r)

/-- 60 R169: an operation ends with no error kind outside its row of the raise matrix. -/
def Obligations.ErrorsStayInTheRaiseMatrix : Prop :=
  ∀ (i : Instr) (s : State) (k : ErrKind), exec i s = .next (after s (.error k)) → k ∈ mayRaise i

/-- The invariant: every response the host holds is one the rules allow (10 R19, 30 R50, R53, R55, 42 R126, R129). It holds after
every step from every state in which it holds. -/
def Obligations.StepKeepsDeliveredSound : Prop :=
  ∀ (bound : InLenBound) (s t : State), DeliveredSound s → stepWith bound s = .next t → DeliveredSound t

/-- Nothing is delivered at reset, so every response held is sound (the empty list is log entry 1). -/
def Obligations.ResetIsDeliveredSound : Prop := DeliveredSound State.reset

/-- 70 R202: where every move the host has still to make is legal, the step goes on and the same holds after it. Two clauses are
the model's: a request for ENC is legal whatever the length of its Info, since MAX_IN_LEN bounds the sequences of DEC, FCHK,
BS2H and HS2B alone (log entry 4, read from 00 R4); with no move pending, the step answers the same state (log entry 7). -/
def Obligations.LegalHostIsNeverRefused : Prop :=
  ∀ (bound : InLenBound) (s : State), PendingLegal bound s → ∃ t, stepWith bound s = .next t ∧ PendingLegal bound t

/-! ### Encodings -/

/-- 30 R61 (the numbers are the spec's own, decision D3): each `op` selects its operation, on the operands of its row. -/
def Obligations.OpCodesSelectTheirOperations : Prop :=
  ∀ o : Operands,
    decode ⟨0x0#4, o⟩ = .ok (.b2h o.b) ∧ decode ⟨0x1#4, o⟩ = .ok (.bs2h o.bytes) ∧
    decode ⟨0x2#4, o⟩ = .ok (.h2b o.hi o.lo) ∧ decode ⟨0x3#4, o⟩ = .ok (.hs2b o.hexText) ∧
    decode ⟨0x4#4, o⟩ = .ok (.fchk o.asciiBody) ∧ decode ⟨0x5#4, o⟩ = .ok (.lchk o.lenid) ∧
    decode ⟨0x6#4, o⟩ = .ok (.lpack o.lenid) ∧ decode ⟨0x7#4, o⟩ = .ok (.lunpk o.lengthText) ∧
    decode ⟨0x8#4, o⟩ = .ok (.rtncls o.code) ∧ decode ⟨0x9#4, o⟩ = .ok (.enc o.pdu) ∧
    decode ⟨0xA#4, o⟩ = .ok (.dec o.frame)

/-- Words of the opcode table decode to their operations on blank operands, and a reserved one to none. -/
def Obligations.SampleTableWordsDecode : Prop :=
  decodeTableWord 8 0x0 = some (.b2h 0) ∧ decodeTableWord 8 0x3 = some (.hs2b []) ∧
  decodeTableWord 8 0x6 = some (.lpack 0) ∧ decodeTableWord 8 0xA = some (.dec []) ∧ decodeTableWord 8 0xB = none

/-- Every operation, with every value of its operands, decodes from the request that encodes it (30 R61, 10 R19). -/
def Obligations.DecodeInvertsEncode : Prop := ∀ i : Instr, decode (encode i) = .ok i

/-- A request decodes exactly when its `op` is at most 0xA, and the operation's own code is that `op` (30 R61, R62). -/
def Obligations.DecodedOperationCarriesTheOpCode : Prop :=
  ∀ r : Request, ((∃ i, decode r = .ok i) ↔ r.op.toNat ≤ 0xA) ∧ ∀ i, decode r = .ok i → (encode i).op = r.op

/-! ### HexCodec -/

/-- 10 R13 with the ASCII codes of decision D12: the table holds `0` to `9` from 0x30 and `A` to `F` from 0x41. -/
def Obligations.HexTableHoldsAsciiDigits : Prop :=
  hexLut.length = 16 ∧ ∀ n : Nibble,
    nib2char n = if n.toNat < 10 then BitVec.ofNat 8 (0x30 + n.toNat) else BitVec.ofNat 8 (0x37 + n.toNat)

/-- 40 R80: the character of a nibble is HEXLUT's entry, always one of the 16 upper-case digits. -/
def Obligations.NibblesReadTheHexTable : Prop :=
  (∀ n : Nibble, hexLut[n.toNat]? = some (nib2char n) ∧ isUpperHex (nib2char n) = true) ∧
  nib2char 0 = 0x30 ∧ nib2char 9 = 0x39 ∧ nib2char 10 = 0x41 ∧ nib2char 15 = 0x46

/-- 40 R81 (ASCII codes by decision D12): a character is read as its digit value or not accepted at all, and the character of
every nibble is read back. -/
def Obligations.CharactersReadAsDigits : Prop :=
  (∀ c : Byte, char2nib c = match digitOf c with
    | some v => .ok (BitVec.ofNat 4 v)
    | none => .error .invalidHexCharacter) ∧
  ∀ n : Nibble, char2nib (nib2char n) = .ok n

/-- 40 R82: B2H answers HEXLUT at the high nibble, then at the low nibble. -/
def Obligations.B2hDeliversTheHexPair : Prop :=
  ∀ (b : Byte) (s : State),
    exec (.b2h b) s = .next (after s (.ok (.b2h (hexChar (b.toNat / 16)) (hexChar (b.toNat % 16)))))

/-- 40 R83: BS2H answers a text of 2N characters, those at 2k and 2k+1 being the characters of byte k's nibbles. -/
def Obligations.Bs2hDeliversPairsInOrder : Prop :=
  ∀ (bytes : List Byte) (s : State),
    ∃ t : List Byte, exec (.bs2h bytes) s = .next (after s (.ok (.bs2h t))) ∧ t.length = 2 * bytes.length ∧
      ∀ (k : Nat) (b : Byte), bytes[k]? = some b →
        t[2 * k]? = some (hexChar (b.toNat / 16)) ∧ t[2 * k + 1]? = some (hexChar (b.toNat % 16))

/-- 40 R84: H2B answers the byte of two accepted characters, and InvalidHexCharacter when one of them is not accepted. -/
def Obligations.H2bDeliversTheByte : Prop :=
  ∀ (hi lo : Byte) (s : State),
    (∀ h l, digitOf hi = some h → digitOf lo = some l →
      exec (.h2b hi lo) s = .next (after s (.ok (.h2b (BitVec.ofNat 8 (16 * h + l)))))) ∧
    (digitOf hi = none ∨ digitOf lo = none →
      exec (.h2b hi lo) s = .next (after s (.error .invalidHexCharacter)))

/-- 40 R85: HS2B tests the length first, then answers the bytes of the pairs in order, or InvalidHexCharacter. -/
def Obligations.Hs2bDeliversTheBytes : Prop :=
  ∀ (t : List Byte) (s : State),
    (t.length % 2 = 1 → exec (.hs2b t) s = .next (after s (.error .oddLengthHex))) ∧
    (∀ bytes, t.length % 2 = 0 → bytesAt t 0 (t.length / 2) = some bytes →
      exec (.hs2b t) s = .next (after s (.ok (.hs2b bytes)))) ∧
    (t.length % 2 = 0 → bytesAt t 0 (t.length / 2) = none →
      exec (.hs2b t) s = .next (after s (.error .invalidHexCharacter)))

/-- 40 R86, both directions: bytes come back from their text, and an accepted text comes back in upper case. -/
def Obligations.HexTextRoundTrip : Prop :=
  (∀ (bytes : List Byte) (s : State), ∃ t, exec (.bs2h bytes) s = .next (after s (.ok (.bs2h t))) ∧
    ∀ s', exec (.hs2b t) s' = .next (after s' (.ok (.hs2b bytes)))) ∧
  ∀ (t : List Byte) (s : State), t.length % 2 = 0 → (∀ c ∈ t, digitOf c ≠ none) →
    ∃ bytes, exec (.hs2b t) s = .next (after s (.ok (.hs2b bytes))) ∧
      ∀ s', exec (.bs2h bytes) s' = .next (after s' (.ok (.bs2h (t.map upper))))

/-! ### ChecksumSuite -/

/-- 41 R101: a 16-bit value is written as its four nibbles' characters, high first, which is BS2H of its two bytes, high
first; all four are upper-case digits. -/
def Obligations.SixteenBitTextIsBigEndian : Prop :=
  ∀ v : Half,
    (hex4 v).toList = [hexChar (v.toNat / 4096), hexChar (v.toNat / 256 % 16), hexChar (v.toNat / 16 % 16),
      hexChar (v.toNat % 16)] ∧
    (∀ s : State, exec (.bs2h [v.extractLsb' 8 8, v.extractLsb' 0 8]) s = .next (after s (.ok (.bs2h (hex4 v).toList)))) ∧
    (hex4 v).toList.all isUpperHex = true

/-- 41 R100: FCHK answers the two's complement of the byte sum modulo 2^16, as a number and as its four characters. -/
def Obligations.FchkDeliversTheFrameChecksum : Prop :=
  ∀ (asciiBody : List Byte) (s : State),
    exec (.fchk asciiBody) s =
      .next (after s (.ok (.fchk (BitVec.ofNat 16 (fchkNat asciiBody)) (fourChars (fchkNat asciiBody)))))

/-- 41 R103: LCHK answers `(16 - s) mod 16`, with `s` the sum of the three nibbles mod 16. -/
def Obligations.LchkDeliversTheLengthChecksum : Prop :=
  ∀ (lenid : Lenid) (s : State),
    exec (.lchk lenid) s = .next (after s (.ok (.lchk (BitVec.ofNat 4 (lchkNat lenid.toNat)))))

/-- 41 R105: LPACK answers LCHKSUM over LENID, as a number and as its four characters. -/
def Obligations.LpackDeliversTheLengthField : Prop :=
  ∀ (lenid : Lenid) (s : State),
    exec (.lpack lenid) s =
      .next (after s (.ok (.lpack (BitVec.ofNat 16 (lengthNat lenid.toNat)) (fourChars (lengthNat lenid.toNat)))))

/-- 41 R106: LUNPK answers InvalidHexCharacter where the four characters form no value, LENID where the carried checksum is
the recomputed one, LChecksumMismatch where it is not. -/
def Obligations.LunpkVerifiesTheLengthField : Prop :=
  ∀ (t : Text4) (s : State),
    (fourAt t.toList 0 = none → exec (.lunpk t) s = .next (after s (.error .invalidHexCharacter))) ∧
    (∀ v, fourAt t.toList 0 = some v → v / 4096 = lchkNat (v % 4096) →
      exec (.lunpk t) s = .next (after s (.ok (.lunpk (BitVec.ofNat 12 (v % 4096)))))) ∧
    (∀ v, fourAt t.toList 0 = some v → v / 4096 ≠ lchkNat (v % 4096) →
      exec (.lunpk t) s = .next (after s (.error .lChecksumMismatch)))

/-- 41 R105, R106: LUNPK gives back the LENID of every field LPACK packed. -/
def Obligations.LunpkInvertsLpack : Prop :=
  ∀ (lenid : Lenid) (s : State), ∃ v t, exec (.lpack lenid) s = .next (after s (.ok (.lpack v t))) ∧
    ∀ s', exec (.lunpk t) s' = .next (after s' (.ok (.lunpk lenid)))

/-- 41 R108: a text's byte sum and its checksum cancel modulo 2^16; the four nibbles of a packed LENGTH sum to a multiple
of 16. -/
def Obligations.ChecksumsCancelTheirSums : Prop :=
  (∀ (text : List Byte) (s : State) (chk : Half) (t : Text4), exec (.fchk text) s = .next (after s (.ok (.fchk chk t))) →
    (byteSum text + chk.toNat) % 65536 = 0) ∧
  ∀ (lenid : Lenid) (s : State) (v : Half) (t : Text4), exec (.lpack lenid) s = .next (after s (.ok (.lpack v t))) →
    (v.toNat / 4096 + v.toNat / 256 % 16 + v.toNat / 16 % 16 + v.toNat % 16) % 16 = 0

/-! ### FrameCodec -/

/-- 42 R120: RTNCLS answers success or the mapped error, by the pseudocode's tests in order. -/
def Obligations.RtnclsClassifiesTheCode : Prop :=
  ∀ (code : Byte) (s : State),
    (rtnErr code.toNat = none → exec (.rtncls code) s = .next (after s (.ok .rtncls))) ∧
    (∀ k, rtnErr code.toNat = some k → exec (.rtncls code) s = .next (after s (.error k)))

/-- 42 R121: ENC answers the frame of 30 R50 with the computed LENGTH and CHKSUM, or InfoTooLarge. -/
def Obligations.EncDeliversTheFrame : Prop :=
  ∀ (p : Pdu) (s : State),
    (p.info.length ≤ 0x7FF → exec (.enc p) s = .next (after s (.ok (.enc (frameOf (bodyOf p)))))) ∧
    (0x7FF < p.info.length → exec (.enc p) s = .next (after s (.error .infoTooLarge)))

/-- 30 R55, 42 R121: a frame ENC produced has 18 + 2 len(Info) bytes, at most 4112, SOI first, EOI last, and only upper-case
hex digits between. -/
def Obligations.EncFramesHaveLegalShape : Prop :=
  ∀ (p : Pdu) (s : State) (frame : List Byte), exec (.enc p) s = .next (after s (.ok (.enc frame))) →
    frame.length = 18 + 2 * p.info.length ∧ frame.length ≤ maxEncFrameBytes ∧ frame[0]? = some 0x7E ∧
    frame[frame.length - 1]? = some 0x0D ∧
    ∀ (j : Nat) (c : Byte), 1 ≤ j → j + 1 < frame.length → frame[j]? = some c → isUpperHex c = true

/-- 42 R122: a frame that passes the ten steps decodes to the PDU of its fields. -/
def Obligations.DecDeliversThePdu : Prop :=
  ∀ (frame : List Byte) (p : Pdu) (lenid : Nat) (s : State), decodesTo frame p lenid = true →
    exec (.dec frame) s = .next (after s (.ok (.dec p)))

/-- 42 R122, R126: a frame decodes to a PDU only if it passes the ten steps with that PDU's fields, LENID being twice the
length of Info. -/
def Obligations.DecSucceedsOnlyOnTheTenSteps : Prop :=
  ∀ (frame : List Byte) (p : Pdu) (s : State), exec (.dec frame) s = .next (after s (.ok (.dec p))) →
    decodesTo frame p (2 * p.info.length) = true ∧ p.info.length ≤ 0x7FF

/-- 42 R127: characters added after a decodable region, with CHKSUM recomputed, are ignored. -/
def Obligations.DecIgnoresTrailingCharacters : Prop :=
  ∀ (region extra : List Byte) (p : Pdu) (s : State), exec (.dec (frameOf region)) s = .next (after s (.ok (.dec p))) →
    exec (.dec (frameOf (region ++ extra))) s = .next (after s (.ok (.dec p)))

/-- 42 R129: what ENC produced decodes to its PDU where `Cid2` classifies as success, and to the mapped error elsewhere. -/
def Obligations.FrameRoundTrip : Prop :=
  ∀ (p : Pdu) (s : State), p.info.length ≤ 0x7FF →
    ∃ frame, exec (.enc p) s = .next (after s (.ok (.enc frame))) ∧
      (rtnErr p.cid2.toNat = none → ∀ s', exec (.dec frame) s' = .next (after s' (.ok (.dec p)))) ∧
      (∀ k, rtnErr p.cid2.toNat = some k → ∀ s', exec (.dec frame) s' = .next (after s' (.error k)))

/-- 70 R200: a decoded PDU can be encoded, and the canonical frame decodes to the same PDU. -/
def Obligations.DecodedPduReencodes : Prop :=
  ∀ (frame : List Byte) (p : Pdu) (s : State), exec (.dec frame) s = .next (after s (.ok (.dec p))) →
    ∃ canonical, exec (.enc p) s = .next (after s (.ok (.enc canonical))) ∧
      exec (.dec canonical) s = .next (after s (.ok (.dec p)))

/-- 42 R130: changing one character of a decodable frame between SOI and CHKSUM yields ChecksumMismatch. -/
def Obligations.BodyMutationIsDetected : Prop :=
  ∀ (frame : List Byte) (p : Pdu) (s : State) (j : Nat) (c : Byte),
    exec (.dec frame) s = .next (after s (.ok (.dec p))) → 1 ≤ j → j < frame.length - 5 → frame[j]? ≠ some c →
    exec (.dec (frame.set j c)) s = .next (after s (.error .checksumMismatch))

/-- 00 R4, 30 R55: an instance with MAX_IN_LEN at least 4112 decodes every frame ENC produced: it never refuses one. -/
def Obligations.LegalBoundAdmitsEveryEncFrame : Prop :=
  ∀ (n : Nat) (p : Pdu) (frame : List Byte) (s t : State) (r : Request) (rest : List HostEvent), maxEncFrameBytes ≤ n →
    exec (.enc p) s = .next (after s (.ok (.enc frame))) → decode r = .ok (.dec frame) → t.pending = .issue r :: rest →
    stepWith (some n) t = exec (.dec frame) { pending := rest, delivered := t.delivered }

/-! ### Errors: which operation ends with which kind, exactly when (60 R152 to R170) -/

/-- 60 R152: InvalidHexCharacter. -/
def Obligations.InvalidHexCharacterExactlyOnBadDigits : Prop :=
  ∀ (i : Instr) (s : State), exec i s = .next (after s (.error .invalidHexCharacter)) ↔
    (∃ hi lo, i = .h2b hi lo ∧ (digitOf hi = none ∨ digitOf lo = none)) ∨
    (∃ t, i = .hs2b t ∧ t.length % 2 = 0 ∧ bytesAt t 0 (t.length / 2) = none) ∨
    (∃ t, i = .lunpk t ∧ fourAt t.toList 0 = none) ∨
    (∃ frame, i = .dec frame ∧
      ((reachesHeader frame = true ∧ headerOf frame = none) ∨
       (reachesLength frame = true ∧ fourAt frame 9 = none) ∨
       (∃ lenid, reachesInfo frame lenid = true ∧ 0 < lenid ∧ infoFits frame lenid = true ∧ lenid % 2 = 0 ∧
         bytesAt frame 13 (lenid / 2) = none)))

/-- 60 R153: OddLengthHex. -/
def Obligations.OddLengthHexExactlyOnOddTexts : Prop :=
  ∀ (i : Instr) (s : State), exec i s = .next (after s (.error .oddLengthHex)) ↔
    (∃ t, i = .hs2b t ∧ t.length % 2 = 1) ∨
    (∃ frame lenid, i = .dec frame ∧ reachesInfo frame lenid = true ∧ lenid % 2 = 1 ∧ infoFits frame lenid = true)

/-- 60 R154: FrameTooShort. -/
def Obligations.FrameTooShortExactlyBelowNineBytes : Prop :=
  ∀ (i : Instr) (s : State), exec i s = .next (after s (.error .frameTooShort)) ↔
    ∃ frame, i = .dec frame ∧ frame.length < 9

/-- 60 R155: InvalidDelimiters. -/
def Obligations.InvalidDelimitersExactlyOnBadEnds : Prop :=
  ∀ (i : Instr) (s : State), exec i s = .next (after s (.error .invalidDelimiters)) ↔
    ∃ frame, i = .dec frame ∧ 9 ≤ frame.length ∧ (frame[0]? ≠ some 0x7E ∨ frame[frame.length - 1]? ≠ some 0x0D)

/-- 60 R156 (byte for byte by decision D7, log entry 13): ChecksumMismatch. -/
def Obligations.ChecksumMismatchExactlyOnOtherText : Prop :=
  ∀ (i : Instr) (s : State), exec i s = .next (after s (.error .checksumMismatch)) ↔
    ∃ frame, i = .dec frame ∧ delimited frame = true ∧
      (frame.drop (frame.length - 5)).take 4 ≠ (fourChars (fchkNat (regionOf frame))).toList

/-- 60 R157: MalformedFrame. -/
def Obligations.MalformedFrameExactlyOnShortRegions : Prop :=
  ∀ (i : Instr) (s : State), exec i s = .next (after s (.error .malformedFrame)) ↔
    ∃ frame, i = .dec frame ∧ delimited frame = true ∧ chksumGood frame = true ∧ (regionOf frame).length < 12

/-- 60 R158: LChecksumMismatch. -/
def Obligations.LChecksumMismatchExactlyOnOtherSum : Prop :=
  ∀ (i : Instr) (s : State), exec i s = .next (after s (.error .lChecksumMismatch)) ↔
    (∃ t v, i = .lunpk t ∧ fourAt t.toList 0 = some v ∧ v / 4096 ≠ lchkNat (v % 4096)) ∨
    (∃ frame v, i = .dec frame ∧ reachesLength frame = true ∧ fourAt frame 9 = some v ∧ v / 4096 ≠ lchkNat (v % 4096))

/-- 60 R159: FrameLengthMismatch. -/
def Obligations.FrameLengthMismatchExactlyOnMissingInfo : Prop :=
  ∀ (i : Instr) (s : State), exec i s = .next (after s (.error .frameLengthMismatch)) ↔
    ∃ frame lenid, i = .dec frame ∧ reachesInfo frame lenid = true ∧ 0 < lenid ∧ (regionOf frame).length < 12 + lenid

/-- 60 R160: InfoTooLarge, raised by ENC alone and its only error. -/
def Obligations.InfoTooLargeExactlyOnLongInfo : Prop :=
  (∀ (i : Instr) (s : State), exec i s = .next (after s (.error .infoTooLarge)) ↔
    ∃ p, i = .enc p ∧ 0x7FF < p.info.length) ∧
  ∀ (p : Pdu) (s : State) (k : ErrKind), exec (.enc p) s = .next (after s (.error k)) → k = .infoTooLarge

/-- 60 R161 to R168: each response error, from RTNCLS on its code and from DEC on a frame whose decoded `Cid2` is that
code. -/
def Obligations.ResponseErrorsExactlyOnTheirCodes : Prop :=
  ∀ (i : Instr) (s : State) (k : ErrKind), isResponseError k = true →
    (exec i s = .next (after s (.error k)) ↔
      (∃ code, i = .rtncls code ∧ rtnErr code.toNat = some k) ∨
      (∃ frame v a c d, i = .dec frame ∧ reachesHeader frame = true ∧ headerOf frame = some (v, a, c, d) ∧
        rtnErr d = some k))

/-- 60 R151 (the numbers are the spec's own, decision D4): the code of each status, so that no two share one. -/
def Obligations.StatusCodesFollowTheTable : Prop :=
  (∀ row ∈ ([(.ok, 0x00), (.failed .versionError, 0x01), (.failed .checksumError, 0x02),
      (.failed .lengthChecksumError, 0x03), (.failed .invalidCid2, 0x04), (.failed .commandFormatError, 0x05),
      (.failed .dataInvalid, 0x06), (.failed .asciiError, 0x07), (.failed .otherError, 0x08),
      (.failed .invalidHexCharacter, 0x10), (.failed .oddLengthHex, 0x11), (.failed .frameTooShort, 0x12),
      (.failed .invalidDelimiters, 0x13), (.failed .checksumMismatch, 0x14), (.failed .malformedFrame, 0x15),
      (.failed .lChecksumMismatch, 0x16), (.failed .frameLengthMismatch, 0x17), (.failed .infoTooLarge, 0x18)] :
      List (Status × BitVec 5)), statusCode row.1 = row.2) ∧
  ∀ a b : Status, statusCode a = statusCode b → a = b
end

