-- ==== Sys2Proof/Laws/Fields.lean ====
section
/-! SUPPORT. The bit fields as natural numbers, and the characters of a value: the machine's bit-vector functions against the
words of Safety. -/

namespace Sys2Proof.Machine

open Sys2Proof.Safety

theorem hiNib_toNat (b : Byte) : (hiNib b).toNat = b.toNat / 16 := by
  have := b.isLt
  simp only [hiNib, BitVec.extractLsb'_toNat, Nat.shiftRight_eq_div_pow]
  omega

theorem loNib_toNat (b : Byte) : (loNib b).toNat = b.toNat % 16 := by
  simp [loNib, BitVec.extractLsb'_toNat]

theorem hiByte_toNat (v : Half) : (hiByte v).toNat = v.toNat / 256 := by
  have := v.isLt
  simp only [hiByte, BitVec.extractLsb'_toNat, Nat.shiftRight_eq_div_pow]
  omega

theorem loByte_toNat (v : Half) : (loByte v).toNat = v.toNat % 256 := by
  simp [loByte, BitVec.extractLsb'_toNat]

theorem lenidOf_toNat (v : Half) : (lenidOf v).toNat = v.toNat % 4096 := by
  simp [lenidOf, BitVec.extractLsb'_toNat]

theorem lchksumOf_toNat (v : Half) : (lchksumOf v).toNat = v.toNat / 4096 := by
  have := v.isLt
  simp only [lchksumOf, BitVec.extractLsb'_toNat, Nat.shiftRight_eq_div_pow]
  omega

theorem lenidHi_toNat (l : Lenid) : (lenidHi l).toNat = l.toNat / 256 := by
  have := l.isLt
  simp only [lenidHi, BitVec.extractLsb'_toNat, Nat.shiftRight_eq_div_pow]
  omega

theorem lenidMid_toNat (l : Lenid) : (lenidMid l).toNat = l.toNat / 16 % 16 := by
  simp only [lenidMid, BitVec.extractLsb'_toNat, Nat.shiftRight_eq_div_pow]

theorem lenidLo_toNat (l : Lenid) : (lenidLo l).toNat = l.toNat % 16 := by
  simp [lenidLo, BitVec.extractLsb'_toNat]

/-- A high part shifted over a low part is their weighted sum. -/
theorem shift_or_toNat {w : Nat} (n a b : Nat) (hb : b < 2 ^ n) (h : a * 2 ^ n + b < 2 ^ w) :
    ((BitVec.ofNat w a <<< n) ||| BitVec.ofNat w b).toNat = a * 2 ^ n + b := by
  have ha : a * 2 ^ n < 2 ^ w := by omega
  have ha' : a < 2 ^ w := lt_of_le_of_lt (Nat.le_mul_of_pos_right a (Nat.two_pow_pos n)) ha
  have hb' : b < 2 ^ w := by omega
  rw [BitVec.toNat_or, BitVec.toNat_shiftLeft, BitVec.toNat_ofNat, BitVec.toNat_ofNat, Nat.mod_eq_of_lt ha',
    Nat.mod_eq_of_lt hb', Nat.shiftLeft_eq, Nat.mod_eq_of_lt ha, Nat.mul_comm, Nat.two_pow_add_eq_or_of_lt hb]

theorem joinNibs_toNat (h l : Nibble) : (joinNibs h l).toNat = 16 * h.toNat + l.toNat := by
  have hh := h.isLt
  have hl := l.isLt
  have := shift_or_toNat (w := 8) 4 h.toNat l.toNat hl (by omega)
  simp only [BitVec.ofNat_toNat] at this
  simp only [joinNibs]
  omega

theorem joinBytes_toNat (a b : Byte) : (joinBytes a b).toNat = 256 * a.toNat + b.toNat := by
  have hh := a.isLt
  have hl := b.isLt
  have := shift_or_toNat (w := 16) 8 a.toNat b.toNat hl (by omega)
  simp only [BitVec.ofNat_toNat] at this
  simp only [joinBytes]
  omega

theorem packLength_toNat (c : Nibble) (l : Lenid) : (packLength c l).toNat = 4096 * c.toNat + l.toNat := by
  have hh := c.isLt
  have hl := l.isLt
  have := shift_or_toNat (w := 16) 12 c.toNat l.toNat hl (by omega)
  simp only [BitVec.ofNat_toNat] at this
  simp only [packLength]
  omega

/-! ### Characters -/

theorem nib2char_eq_hexChar (n : Nibble) : nib2char n = hexChar n.toNat := rfl

theorem byteToHexPair_eq (b : Byte) : byteToHexPair b = (hexChar (b.toNat / 16), hexChar (b.toNat % 16)) := by
  simp [byteToHexPair, nib2char_eq_hexChar, hiNib_toNat, loNib_toNat]

theorem hex4_eq_fourChars (v : Half) : hex4 v = fourChars v.toNat := by
  have h0 : v.toNat / 256 / 16 = v.toNat / 4096 := by omega
  have h2 : v.toNat % 256 / 16 = v.toNat / 16 % 16 := by omega
  have h3 : v.toNat % 256 % 16 = v.toNat % 16 := by omega
  simp only [hex4, fourChars, byteToHexPair_eq, hiByte_toNat, loByte_toNat, h0, h2, h3]

/-- `char2nib` accepts the digits of `digitOf` with their values and raises InvalidHexCharacter on all else. -/
theorem char2nib_eq (c : Byte) :
    char2nib c = match digitOf c with
      | some v => .ok (BitVec.ofNat 4 v)
      | none => .error .invalidHexCharacter := by
  revert c
  decide

theorem digitOf_lt (c : Byte) (v : Nat) (h : digitOf c = some v) : v < 16 := by
  have := c.isLt
  unfold digitOf at h
  split at h
  · simp only [Option.some.injEq] at h; omega
  · split at h
    · simp only [Option.some.injEq] at h; omega
    · split at h
      · simp only [Option.some.injEq] at h; omega
      · cases h

theorem digitOf_hexChar (d : Nat) (h : d < 16) : digitOf (hexChar d) = some d := by
  interval_cases d <;> decide

/-- H2B answers the value of its two digits, or InvalidHexCharacter where one of them is none. -/
theorem hexPairToByte_eq (hi lo : Byte) :
    hexPairToByte hi lo = match digitOf hi, digitOf lo with
      | some h, some l => .ok (BitVec.ofNat 8 (16 * h + l))
      | _, _ => .error .invalidHexCharacter := by
  unfold hexPairToByte
  rw [char2nib_eq, char2nib_eq]
  cases hh : digitOf hi with
  | none => rfl
  | some h =>
    cases hl : digitOf lo with
    | none => rfl
    | some l =>
      have h16 := digitOf_lt hi h hh
      have l16 := digitOf_lt lo l hl
      simp only [Except.ok.injEq]
      apply BitVec.eq_of_toNat_eq
      rw [joinNibs_toNat]
      simp only [BitVec.toNat_ofNat]
      omega

end Sys2Proof.Machine
end

