-- ==== Sys2Proof/Laws/Checksum.lean ====
section
/-! SUPPORT. The two checksums and the LENGTH field as natural numbers. -/

namespace Sys2Proof.Machine

open Sys2Proof.Safety

/-- The accumulator holds the byte sum modulo 2^16. -/
theorem sum16_toNat (text : List Byte) (acc : Half) :
    (sum16 acc text).toNat = (acc.toNat + byteSum text) % 65536 := by
  induction text generalizing acc with
  | nil =>
    have := acc.isLt
    simp only [sum16, byteSum, List.map_nil, List.sum_nil, Nat.add_zero]
    omega
  | cons c rest ih =>
    have hc := c.isLt
    simp only [byteSum] at ih
    simp only [sum16, ih, byteSum, List.map_cons, List.sum_cons, BitVec.toNat_add, BitVec.toNat_setWidth]
    omega

/-- Complement and one is the negative at every width. -/
theorem not_add_one_toNat {w : Nat} (v : BitVec w) : (~~~v + 1#w).toNat = (2 ^ w - v.toNat) % 2 ^ w := by
  rw [← BitVec.neg_eq_not_add, BitVec.toNat_neg]

theorem fchk16_toNat (text : List Byte) : (fchk16 text).toNat = fchkNat text := by
  have h := not_add_one_toNat (sum16 0 text)
  have hs : (sum16 0 text).toNat = byteSum text % 65536 := by
    simpa using sum16_toNat text 0
  rw [hs] at h
  exact h

theorem fchkNat_lt (text : List Byte) : fchkNat text < 65536 := by
  unfold fchkNat
  omega

/-- The checksum text of a region, as the machine forms it and as 30 R50 lays it out. -/
theorem hex4_fchk16 (text : List Byte) : hex4 (fchk16 text) = fourChars (fchkNat text) := by
  rw [hex4_eq_fourChars, fchk16_toNat]

theorem lchk_toNat (l : Lenid) : (lchk l).toNat = lchkNat l.toNat := by
  have h := not_add_one_toNat (lenidHi l + lenidMid l + lenidLo l)
  have hs : (lenidHi l + lenidMid l + lenidLo l).toNat = nibbleSum l.toNat % 16 := by
    simp only [BitVec.toNat_add, lenidHi_toNat, lenidMid_toNat, lenidLo_toNat, nibbleSum]
    omega
  rw [hs] at h
  exact h

theorem lchkNat_lt (n : Nat) : lchkNat n < 16 := by
  unfold lchkNat
  omega

theorem length16_toNat (l : Lenid) : (length16 l).toNat = lengthNat l.toNat := by
  rw [length16, packLength_toNat, lchk_toNat, lengthNat]

theorem lengthNat_lt {n : Nat} (h : n < 4096) : lengthNat n < 65536 := by
  have := lchkNat_lt n
  unfold lengthNat
  omega

theorem hex4_length16 (l : Lenid) : hex4 (length16 l) = fourChars (lengthNat l.toNat) := by
  rw [hex4_eq_fourChars, length16_toNat]

/-- A LENGTH value verifies exactly when it is `lengthNat` of its low twelve bits. -/
theorem verifyLength_eq (v : Half) :
    verifyLength v = if v.toNat = lengthNat (v.toNat % 4096) then .ok (lenidOf v)
      else .error .lChecksumMismatch := by
  have hv := v.isLt
  have hiff : lchksumOf v = lchk (lenidOf v) ↔ v.toNat = lengthNat (v.toNat % 4096) := by
    rw [← BitVec.toNat_inj, lchksumOf_toNat, lchk_toNat, lenidOf_toNat, lengthNat]
    omega
  unfold verifyLength
  by_cases h : lchksumOf v = lchk (lenidOf v)
  · rw [if_neg (not_not.mpr h), if_pos (hiff.mp h)]
  · rw [if_pos h, if_neg (fun hn => h (hiff.mpr hn))]

end Sys2Proof.Machine
end

