-- ==== Sys2Proof/Laws/Text.lean ====
section
/-! SUPPORT. Hex texts: BS2H's text, the pairs of HS2B, and reads at an index. -/

namespace Sys2Proof.Machine

open Sys2Proof.Safety

theorem bytesToHex_eq_hexText (bytes : List Byte) : bytesToHex bytes = hexText bytes := by
  induction bytes with
  | nil => rfl
  | cons b rest ih =>
    simp only [bytesToHex, ih, byteToHexPair_eq, hexText, List.flatMap_cons, twoChars, List.cons_append, List.nil_append]

theorem hexText_cons (b : Byte) (bytes : List Byte) : hexText (b :: bytes) = twoChars b.toNat ++ hexText bytes := by
  simp [hexText]

theorem hexText_length (bytes : List Byte) : (hexText bytes).length = 2 * bytes.length := by
  induction bytes with
  | nil => rfl
  | cons b rest ih =>
    rw [hexText_cons, List.length_append, ih]
    simp only [twoChars, List.length_cons, List.length_nil]
    omega

/-- A pair whose index lies past a first part is the pair of the rest. -/
theorem pairAt_append (s t : List Byte) (i : Nat) : pairAt (s ++ t) (s.length + i) = pairAt t i := by
  have h0 : (s ++ t)[s.length + i]? = t[i]? := by
    rw [List.getElem?_append_right (by omega), Nat.add_sub_cancel_left]
  have h1 : (s ++ t)[s.length + i + 1]? = t[i + 1]? := by
    rw [Nat.add_assoc, List.getElem?_append_right (by omega), Nat.add_sub_cancel_left]
  simp only [pairAt, h0, h1]

theorem bytesAt_append (s t : List Byte) (i k : Nat) : bytesAt (s ++ t) (s.length + i) k = bytesAt t i k := by
  induction k generalizing i with
  | zero => rfl
  | succ n ih =>
    have := ih (i + 2)
    rw [← Nat.add_assoc] at this
    simp only [bytesAt, this, pairAt_append]

theorem pairAt_cons_cons (hi lo : Byte) (rest : List Byte) (i : Nat) :
    pairAt (hi :: lo :: rest) (i + 2) = pairAt rest i := by
  have := pairAt_append [hi, lo] rest i
  simpa [Nat.add_comm] using this

theorem bytesAt_cons_cons (hi lo : Byte) (rest : List Byte) (i k : Nat) :
    bytesAt (hi :: lo :: rest) (i + 2) k = bytesAt rest i k := by
  have := bytesAt_append [hi, lo] rest i k
  simpa [Nat.add_comm] using this

/-- H2B of two characters is the pair they form. -/
theorem hexPairToByte_eq_pairAt (hi lo : Byte) (rest : List Byte) :
    hexPairToByte hi lo = match pairAt (hi :: lo :: rest) 0 with
      | some v => .ok (BitVec.ofNat 8 v)
      | none => .error .invalidHexCharacter := by
  rw [hexPairToByte_eq]
  simp only [pairAt, List.getElem?_cons_zero, Nat.zero_add, List.getElem?_cons_succ]
  cases digitOf hi <;> cases digitOf lo <;> rfl

/-- The loop of HS2B over an even text decodes its pairs, or ends with InvalidHexCharacter. -/
theorem decodePairs_eq (k : Nat) (t : List Byte) (h : t.length = 2 * k) :
    decodePairs t = match bytesAt t 0 k with
      | some bs => .ok bs
      | none => .error .invalidHexCharacter := by
  induction k generalizing t with
  | zero =>
    have : t = [] := List.length_eq_zero_iff.mp (by omega)
    subst this
    rfl
  | succ n ih =>
    match t, h with
    | hi :: lo :: rest, h =>
      have hr := ih rest (by simp only [List.length_cons] at h; omega)
      simp only [decodePairs, hexPairToByte_eq_pairAt hi lo rest, hr, bytesAt, bytesAt_cons_cons]
      cases pairAt (hi :: lo :: rest) 0 <;> cases bytesAt rest 0 n <;> rfl
    | [_], h => simp only [List.length_cons, List.length_nil] at h; omega
    | [], h => simp only [List.length_nil] at h; omega

/-- HS2B: the odd length first, then the pairs. -/
theorem hexToBytes_eq (t : List Byte) :
    hexToBytes t = if t.length % 2 = 1 then .error .oddLengthHex
      else match bytesAt t 0 (t.length / 2) with
        | some bs => .ok bs
        | none => .error .invalidHexCharacter := by
  unfold hexToBytes
  split
  · rfl
  · exact decodePairs_eq _ _ (by omega)

/-- A pair that BS2H wrote reads back as its byte. -/
theorem pairAt_twoChars (v : Nat) (h : v < 256) (rest : List Byte) : pairAt (twoChars v ++ rest) 0 = some v := by
  simp only [pairAt, twoChars, List.cons_append, List.nil_append, List.getElem?_cons_zero, Nat.zero_add,
    List.getElem?_cons_succ, digitOf_hexChar _ (show v / 16 < 16 by omega), digitOf_hexChar _ (show v % 16 < 16 by omega),
    Option.some.injEq]
  omega

/-- The text BS2H wrote reads back as the bytes it came from. -/
theorem bytesAt_hexText (bytes rest : List Byte) : bytesAt (hexText bytes ++ rest) 0 bytes.length = some bytes := by
  induction bytes with
  | nil => rfl
  | cons b bs ih =>
    have hp := pairAt_twoChars b.toNat b.isLt (hexText bs ++ rest)
    have hb : bytesAt (twoChars b.toNat ++ (hexText bs ++ rest)) 2 bs.length = some bs :=
      (bytesAt_append (twoChars b.toNat) (hexText bs ++ rest) 0 bs.length).trans ih
    rw [hexText_cons, List.append_assoc, List.length_cons]
    simp only [bytesAt, hp, hb, BitVec.ofNat_toNat, BitVec.setWidth_eq]

/-- LUNPK on its four characters. -/
theorem unpackLength_value (t : Text4) :
    (∀ v, fourAt t.toList 0 = some v →
      unpackLength t = verifyLength (BitVec.ofNat 16 v) ∧ v < 65536) ∧
    (fourAt t.toList 0 = none → unpackLength t = .error .invalidHexCharacter) := by
  have e0 := hexPairToByte_eq_pairAt t.c0 t.c1 [t.c2, t.c3]
  have e1 := hexPairToByte_eq_pairAt t.c2 t.c3 []
  have h2 : pairAt [t.c0, t.c1, t.c2, t.c3] (0 + 2) = pairAt [t.c2, t.c3] 0 := pairAt_cons_cons _ _ _ _
  have bound : ∀ (s : List Byte) (i v : Nat), pairAt s i = some v → v < 256 := by
    intro s i v h
    unfold pairAt at h
    split at h
    · split at h
      · next _ _ _ _ a b ha hb =>
        have := digitOf_lt _ _ ha
        have := digitOf_lt _ _ hb
        simp only [Option.some.injEq] at h
        omega
      · cases h
    · cases h
  simp only [fourAt, Text4.toList, h2, unpackLength, e0, e1]
  cases hp : pairAt [t.c0, t.c1, t.c2, t.c3] 0 with
  | none => simp
  | some a =>
    cases hq : pairAt [t.c2, t.c3] 0 with
    | none => simp
    | some b =>
      have ha := bound _ _ _ hp
      have hb := bound _ _ _ hq
      refine ⟨?_, by simp⟩
      rintro v hv
      simp only [Option.some.injEq] at hv
      subst hv
      refine ⟨congrArg verifyLength ?_, by omega⟩
      apply BitVec.eq_of_toNat_eq
      rw [joinBytes_toNat]
      simp only [BitVec.toNat_ofNat]
      omega

end Sys2Proof.Machine
end

