-- ==== Sys2Proof/Laws/Frame.lean ====
section
/-! SUPPORT. RTNCLS, ENC and DEC in the words of Safety: the response table as the pseudocode of 42 R120, the frame ENC
lays out, and DEC's steps over the frame indices of 30 R50. -/

namespace Sys2Proof.Machine

open Sys2Proof.Safety

theorem classifyResponseCode_eq (code : Byte) :
    classifyResponseCode code = match rtnErr code.toNat with
      | some k => .error k
      | none => .ok () := by
  revert code
  decide

theorem wrapRegion_eq_frameOf (region : List Byte) : wrapRegion region = frameOf region := by
  rw [wrapRegion, frameOf, hex4_fchk16]
  rfl

theorem frameBody_eq_bodyOf (p : Pdu) (h : p.info.length ≤ 0x7FF) : frameBody p = bodyOf p := by
  have hl : (BitVec.ofNat 12 (2 * p.info.length)).toNat = 2 * p.info.length := by
    rw [BitVec.toNat_ofNat]
    omega
  simp only [frameBody, headerText, bytesToHex_eq_hexText, hexText_length, hex4_length16, hl, bodyOf, hexText_cons,
    List.append_assoc]
  simp [hexText]

/-- ENC answers the frame of 30 R50, or InfoTooLarge. -/
theorem encodeFrame_eq (p : Pdu) :
    encodeFrame p = if 0x7FF < p.info.length then .error .infoTooLarge else .ok (frameOf (bodyOf p)) := by
  unfold encodeFrame maxInfoBytes
  split
  · rfl
  · rw [wrapRegion_eq_frameOf, frameBody_eq_bodyOf p (by omega)]

/-! ### Reads inside a window of a sequence -/

theorem window_get (s : List Byte) (a m i : Nat) (h : i < m) : ((s.drop a).take m)[i]? = s[a + i]? := by
  rw [List.getElem?_take_of_lt h, List.getElem?_drop]

theorem pairAt_window (s : List Byte) (a m i : Nat) (h : i + 1 < m) :
    pairAt ((s.drop a).take m) i = pairAt s (a + i) := by
  simp only [pairAt, window_get s a m i (by omega), window_get s a m (i + 1) h, Nat.add_assoc]

theorem bytesAt_window (s : List Byte) (a m i k : Nat) (h : i + 2 * k ≤ m) :
    bytesAt ((s.drop a).take m) i k = bytesAt s (a + i) k := by
  induction k generalizing i with
  | zero => rfl
  | succ n ih =>
    have := ih (i + 2) (by omega)
    rw [← Nat.add_assoc] at this
    simp only [bytesAt, this, pairAt_window s a m i (by omega)]

theorem charAt_eq (s : List Byte) (i : Nat) (h : i < s.length) : s[i]? = some (charAt s i) := by
  simp [charAt, List.getD_eq_getElem?_getD, List.getElem?_eq_getElem h]

/-- H2B of two neighbouring characters of a sequence is the pair at the first one's index. -/
theorem decodeField_eq (s : List Byte) (i : Nat) (h : i + 1 < s.length) :
    decodeField s i = match pairAt s i with
      | some v => .ok (BitVec.ofNat 8 v)
      | none => .error .invalidHexCharacter := by
  unfold decodeField
  rw [hexPairToByte_eq]
  simp only [pairAt, charAt_eq s i (by omega), charAt_eq s (i + 1) h]
  cases digitOf (charAt s i) <;> cases digitOf (charAt s (i + 1)) <;> rfl

theorem pairAt_lt (s : List Byte) (i v : Nat) (h : pairAt s i = some v) : v < 256 := by
  unfold pairAt at h
  split at h
  · split at h
    · next _ _ _ _ a b ha hb =>
      have := digitOf_lt _ _ ha
      have := digitOf_lt _ _ hb
      simp only [Option.some.injEq] at h
      omega
    · cases h
  · cases h

theorem fourAt_text4At (s : List Byte) (i : Nat) (h : i + 3 < s.length) :
    fourAt (text4At s i).toList 0 = fourAt s i := by
  have h0 : pairAt (text4At s i).toList 0 = pairAt s i := by
    simp only [pairAt, text4At, Text4.toList, charAt_eq s i (by omega), charAt_eq s (i + 1) (by omega),
      List.getElem?_cons_zero, Nat.zero_add, List.getElem?_cons_succ]
  have h2 : pairAt (text4At s i).toList (0 + 2) = pairAt s (i + 2) := by
    simp only [pairAt, text4At, Text4.toList, charAt_eq s (i + 2) (by omega), charAt_eq s (i + 3) (by omega),
      List.getElem?_cons_zero, Nat.zero_add, List.getElem?_cons_succ]
  simp only [fourAt, h0, h2]

/-! ### DEC -/

theorem frameRegion_eq_regionOf (frame : List Byte) : frameRegion frame = regionOf frame := by
  simp only [frameRegion, regionOf, slice, Nat.sub_sub]

theorem regionOf_length (frame : List Byte) : (regionOf frame).length = frame.length - 6 := by
  simp only [regionOf, List.length_take, List.length_drop]
  omega

/-- Step 9 on the region is the read of Info at frame index 13. -/
theorem decodeInfo_eq (frame : List Byte) (lenid : Lenid) :
    decodeInfo (regionOf frame) lenid =
      if lenid.toNat = 0 then .ok []
      else if infoFits frame lenid.toNat = false then .error .frameLengthMismatch
      else if lenid.toNat % 2 = 1 then .error .oddLengthHex
      else match bytesAt frame 13 (lenid.toNat / 2) with
        | some bs => .ok bs
        | none => .error .invalidHexCharacter := by
  unfold decodeInfo headerChars infoFits
  rw [regionOf_length]
  by_cases h0 : lenid.toNat = 0
  · simp [h0]
  · rw [if_pos (by omega), if_neg h0]
    by_cases hf : frame.length - 6 < 12 + lenid.toNat
    · rw [if_pos hf, if_pos (by simp only [decide_eq_false_iff_not]; omega)]
    · have hs : (slice (regionOf frame) 12 (12 + lenid.toNat)).length = lenid.toNat := by
        simp only [slice, List.length_take, List.length_drop, regionOf_length]
        omega
      rw [if_neg hf, if_neg (by simp only [decide_eq_false_iff_not]; omega), hexToBytes_eq, hs]
      by_cases ho : lenid.toNat % 2 = 1
      · rw [if_pos ho, if_pos ho]
      · rw [if_neg ho, if_neg ho]
        have hb : bytesAt (slice (regionOf frame) 12 (12 + lenid.toNat)) 0 (lenid.toNat / 2)
            = bytesAt frame 13 (lenid.toNat / 2) := by
          unfold slice
          rw [bytesAt_window _ _ _ _ _ (by omega)]
          unfold regionOf
          rw [bytesAt_window _ _ _ _ _ (by omega)]
        cases hc : bytesAt frame 13 (lenid.toNat / 2) <;> simp only [hb, hc]

/-- Steps 6 to 10 over frame indices, for a frame of at least 18 bytes. -/
theorem decodeRegion_eq (frame : List Byte) (h : 18 ≤ frame.length) :
    decodeRegion (regionOf frame) =
      match headerOf frame with
      | none => .error .invalidHexCharacter
      | some (v, a, c, d) =>
        match rtnErr d with
        | some k => .error k
        | none => decodeBody (regionOf frame) (BitVec.ofNat 8 v) (BitVec.ofNat 8 a) (BitVec.ofNat 8 c) (BitVec.ofNat 8 d) := by
  have hl := regionOf_length frame
  have field : ∀ i, i + 1 < 12 → decodeField (regionOf frame) i = match pairAt frame (1 + i) with
      | some v => .ok (BitVec.ofNat 8 v)
      | none => .error .invalidHexCharacter := by
    intro i hi
    rw [decodeField_eq _ _ (by omega)]
    unfold regionOf
    rw [pairAt_window _ _ _ _ (by omega)]
  simp only [decodeRegion, headerOf, field 0 (by omega), field 2 (by omega), field 4 (by omega), field 6 (by omega)]
  cases pairAt frame 1 with
  | none => rfl
  | some v =>
    cases pairAt frame 3 with
    | none => rfl
    | some a =>
      cases pairAt frame 5 with
      | none => rfl
      | some c =>
        cases hd : pairAt frame 7 with
        | none => rfl
        | some d =>
          have hd' := pairAt_lt _ _ _ hd
          have : (BitVec.ofNat 8 d).toNat = d := by
            rw [BitVec.toNat_ofNat]
            omega
          simp only [classifyResponseCode_eq, this]
          cases rtnErr d <;> rfl

/-- Steps 8 to 10 over frame indices. -/
theorem decodeBody_eq (frame : List Byte) (h : 18 ≤ frame.length) (ver addr cid1 cid2 : Byte) :
    decodeBody (regionOf frame) ver addr cid1 cid2 =
      match fourAt frame 9 with
      | none => .error .invalidHexCharacter
      | some w =>
        if w = lengthNat (w % 4096) then
          match decodeInfo (regionOf frame) (BitVec.ofNat 12 (w % 4096)) with
          | .error k => .error k
          | .ok info => .ok ⟨ver, addr, cid1, cid2, info⟩
        else .error .lChecksumMismatch := by
  have hl := regionOf_length frame
  have hfour : fourAt (text4At (regionOf frame) 8).toList 0 = fourAt frame 9 := by
    rw [fourAt_text4At _ _ (by omega)]
    unfold fourAt regionOf
    rw [pairAt_window _ _ _ _ (by omega), pairAt_window _ _ _ _ (by omega)]
  obtain ⟨hsome, hnone⟩ := unpackLength_value (text4At (regionOf frame) 8)
  rw [hfour] at hsome hnone
  unfold decodeBody
  cases hw : fourAt frame 9 with
  | none => rw [hnone hw]
  | some w =>
    obtain ⟨hu, hlt⟩ := hsome w hw
    have hn : (BitVec.ofNat 16 w).toNat = w := by
      rw [BitVec.toNat_ofNat]
      omega
    have hid : lenidOf (BitVec.ofNat 16 w) = BitVec.ofNat 12 (w % 4096) := by
      apply BitVec.eq_of_toNat_eq
      rw [lenidOf_toNat, hn, BitVec.toNat_ofNat]
      omega
    rw [hu, verifyLength_eq, hn]
    by_cases hv : w = lengthNat (w % 4096)
    · cases hdi : decodeInfo (regionOf frame) (BitVec.ofNat 12 (w % 4096)) <;>
        simp only [if_pos hv, hid, hdi]
    · simp only [if_neg hv]

theorem delimited_eq_true (frame : List Byte) (h : ¬ frame.length < 9) :
    delimited frame = true ↔ charAt frame 0 = soi ∧ charAt frame (frame.length - 1) = eoi := by
  simp only [delimited, charAt_eq frame 0 (by omega), charAt_eq frame (frame.length - 1) (by omega), soi, eoi,
    Bool.and_eq_true, decide_eq_true_eq, beq_iff_eq, Option.some.injEq]
  constructor
  · rintro ⟨⟨_, h1⟩, h2⟩
    exact ⟨h1, h2⟩
  · rintro ⟨h1, h2⟩
    exact ⟨⟨by omega, h1⟩, h2⟩

theorem chksumGood_eq_true (frame : List Byte) (h : ¬ frame.length < 9) :
    chksumGood frame = true ↔ (hex4 (fchk16 (frameRegion frame))).toList = frameChksum frame := by
  have h4 : frame.length - 1 - (frame.length - 5) = 4 := by omega
  rw [frameRegion_eq_regionOf, hex4_fchk16]
  simp only [chksumGood, beq_iff_eq, frameChksum, slice, h4]
  exact eq_comm

/-- DEC: steps 1, 2, 4 and 5 in their order, then steps 6 to 10. -/
theorem decodeFrame_eq (frame : List Byte) :
    decodeFrame frame =
      if frame.length < 9 then .error .frameTooShort
      else if delimited frame = false then .error .invalidDelimiters
      else if chksumGood frame = false then .error .checksumMismatch
      else if frame.length < 18 then .error .malformedFrame
      else decodeRegion (regionOf frame) := by
  unfold decodeFrame minFrameBytes headerChars
  by_cases h9 : frame.length < 9
  · rw [if_pos h9, if_pos h9]
  · rw [if_neg h9, if_neg h9]
    by_cases hd : delimited frame = true
    · have hc := (delimited_eq_true frame h9).mp hd
      have n1 : ¬ (charAt frame 0 ≠ soi ∨ charAt frame (frame.length - 1) ≠ eoi) := by simp [hc.1, hc.2]
      have n2 : ¬ delimited frame = false := by simp [hd]
      rw [if_neg n1, if_neg n2]
      by_cases hg : chksumGood frame = true
      · have hk := (chksumGood_eq_true frame h9).mp hg
        have hm : (regionOf frame).length < 12 ↔ frame.length < 18 := by
          rw [regionOf_length]
          omega
        have n3 : ¬ chksumGood frame = false := by simp [hg]
        rw [if_neg (not_not.mpr hk), if_neg n3]
        simp only [frameRegion_eq_regionOf, hm]
      · rw [if_pos (fun hk => hg ((chksumGood_eq_true frame h9).mpr hk)), if_pos (by simpa using hg)]
    · have hc := mt (delimited_eq_true frame h9).mpr hd
      rw [if_pos (by tauto), if_pos (by simpa using hd)]

/-! ### DEC, stage by stage -/

theorem delimited_length (frame : List Byte) (h : delimited frame = true) : 9 ≤ frame.length := by
  simp only [delimited, Bool.and_eq_true, decide_eq_true_eq] at h
  exact h.1.1

theorem reachesHeader_iff (frame : List Byte) :
    reachesHeader frame = true ↔ delimited frame = true ∧ chksumGood frame = true ∧ 18 ≤ frame.length := by
  simp only [reachesHeader, Bool.and_eq_true, decide_eq_true_eq, and_assoc]

theorem reachesLength_iff (frame : List Byte) :
    reachesLength frame = true ↔
      reachesHeader frame = true ∧ ∃ v a c d, headerOf frame = some (v, a, c, d) ∧ rtnErr d = none := by
  unfold reachesLength
  rw [Bool.and_eq_true]
  refine and_congr_right (fun _ => ?_)
  cases headerOf frame with
  | none => simp
  | some q => obtain ⟨v, a, c, d⟩ := q; simp

theorem reachesInfo_iff (frame : List Byte) (lenid : Nat) :
    reachesInfo frame lenid = true ↔
      reachesLength frame = true ∧ lenid < 4096 ∧ fourAt frame 9 = some (lengthNat lenid) := by
  simp only [reachesInfo, Bool.and_eq_true, decide_eq_true_eq, beq_iff_eq, and_assoc]

theorem lengthNat_mod (n : Nat) (h : n < 4096) : lengthNat n % 4096 = n := by
  unfold lengthNat
  omega

/-- After step 5. -/
theorem decodeFrame_of_reachesHeader (frame : List Byte) (h : reachesHeader frame = true) :
    decodeFrame frame = decodeRegion (regionOf frame) := by
  obtain ⟨hd, hc, hl⟩ := (reachesHeader_iff frame).mp h
  have h9 : ¬ frame.length < 9 := by omega
  have h18 : ¬ frame.length < 18 := by omega
  simp only [decodeFrame_eq, if_neg h9, hd, hc, if_neg h18, Bool.true_eq_false, if_false]

/-- After step 7. -/
theorem decodeFrame_of_header (frame : List Byte) (v a c d : Nat) (h : reachesHeader frame = true)
    (hh : headerOf frame = some (v, a, c, d)) (hr : rtnErr d = none) :
    decodeFrame frame =
      decodeBody (regionOf frame) (BitVec.ofNat 8 v) (BitVec.ofNat 8 a) (BitVec.ofNat 8 c) (BitVec.ofNat 8 d) := by
  have hl := ((reachesHeader_iff frame).mp h).2.2
  rw [decodeFrame_of_reachesHeader frame h, decodeRegion_eq frame hl, hh]
  simp only [hr]

/-- After step 8. -/
theorem decodeFrame_of_info (frame : List Byte) (v a c d lenid : Nat) (h : reachesInfo frame lenid = true)
    (hh : headerOf frame = some (v, a, c, d)) :
    decodeFrame frame =
      match decodeInfo (regionOf frame) (BitVec.ofNat 12 lenid) with
      | .error k => .error k
      | .ok info =>
        .ok ⟨BitVec.ofNat 8 v, BitVec.ofNat 8 a, BitVec.ofNat 8 c, BitVec.ofNat 8 d, info⟩ := by
  obtain ⟨hl, hn, hf⟩ := (reachesInfo_iff frame lenid).mp h
  obtain ⟨hr, v', a', c', d', hh', hd⟩ := (reachesLength_iff frame).mp hl
  rw [hh] at hh'
  cases hh'
  have h18 := ((reachesHeader_iff frame).mp hr).2.2
  have hm := lengthNat_mod lenid hn
  rw [decodeFrame_of_header frame v a c d hr hh hd, decodeBody_eq frame h18, hf]
  simp only [hm, if_true]

/-- Step 9 with its LENID as a number. -/
theorem decodeInfo_nat (frame : List Byte) (lenid : Nat) (h : lenid < 4096) :
    decodeInfo (regionOf frame) (BitVec.ofNat 12 lenid) =
      if lenid = 0 then .ok []
      else if infoFits frame lenid = false then .error .frameLengthMismatch
      else if lenid % 2 = 1 then .error .oddLengthHex
      else match bytesAt frame 13 (lenid / 2) with
        | some bs => .ok bs
        | none => .error .invalidHexCharacter := by
  have hn : (BitVec.ofNat 12 lenid).toNat = lenid := by
    rw [BitVec.toNat_ofNat]
    omega
  rw [decodeInfo_eq, hn]

/-- The header of a frame is four bytes. -/
theorem headerOf_bytes (frame : List Byte) (v a c d : Nat) (h : headerOf frame = some (v, a, c, d)) :
    v < 256 ∧ a < 256 ∧ c < 256 ∧ d < 256 := by
  unfold headerOf at h
  split at h
  · next h1 h2 h3 h4 =>
    cases h
    exact ⟨pairAt_lt _ _ _ h1, pairAt_lt _ _ _ h2, pairAt_lt _ _ _ h3, pairAt_lt _ _ _ h4⟩
  · cases h

/-- Everything DEC can answer, with the stage at which it does (60 R170). -/
theorem decodeFrame_cases (frame : List Byte) :
    (frame.length < 9 ∧ decodeFrame frame = .error .frameTooShort) ∨
    (9 ≤ frame.length ∧ delimited frame = false ∧ decodeFrame frame = .error .invalidDelimiters) ∨
    (delimited frame = true ∧ chksumGood frame = false ∧ decodeFrame frame = .error .checksumMismatch) ∨
    (delimited frame = true ∧ chksumGood frame = true ∧ frame.length < 18 ∧
      decodeFrame frame = .error .malformedFrame) ∨
    (reachesHeader frame = true ∧ headerOf frame = none ∧ decodeFrame frame = .error .invalidHexCharacter) ∨
    (∃ v a c d k, reachesHeader frame = true ∧ headerOf frame = some (v, a, c, d) ∧ rtnErr d = some k ∧
      decodeFrame frame = .error k) ∨
    (reachesLength frame = true ∧ fourAt frame 9 = none ∧ decodeFrame frame = .error .invalidHexCharacter) ∨
    (∃ w, reachesLength frame = true ∧ fourAt frame 9 = some w ∧ w ≠ lengthNat (w % 4096) ∧
      decodeFrame frame = .error .lChecksumMismatch) ∨
    (∃ lenid, reachesInfo frame lenid = true ∧ 0 < lenid ∧ infoFits frame lenid = false ∧
      decodeFrame frame = .error .frameLengthMismatch) ∨
    (∃ lenid, reachesInfo frame lenid = true ∧ infoFits frame lenid = true ∧ lenid % 2 = 1 ∧
      decodeFrame frame = .error .oddLengthHex) ∨
    (∃ lenid, reachesInfo frame lenid = true ∧ 0 < lenid ∧ infoFits frame lenid = true ∧ lenid % 2 = 0 ∧
      bytesAt frame 13 (lenid / 2) = none ∧ decodeFrame frame = .error .invalidHexCharacter) ∨
    (∃ p lenid, decodesTo frame p lenid = true ∧ decodeFrame frame = .ok p) := by
  have steps := decodeFrame_eq frame
  by_cases h9 : frame.length < 9
  · rw [if_pos h9] at steps
    exact .inl ⟨h9, steps⟩
  rw [if_neg h9] at steps
  refine .inr ?_
  cases hd : delimited frame with
  | false => exact .inl ⟨by omega, rfl, by simpa [hd] using steps⟩
  | true =>
    simp only [hd, Bool.true_eq_false, if_false] at steps
    refine .inr ?_
    cases hc : chksumGood frame with
    | false => exact .inl ⟨rfl, rfl, by simpa [hc] using steps⟩
    | true =>
      simp only [hc, Bool.true_eq_false, if_false] at steps
      refine .inr ?_
      by_cases h18 : frame.length < 18
      · rw [if_pos h18] at steps
        exact .inl ⟨rfl, rfl, h18, steps⟩
      have hr : reachesHeader frame = true := (reachesHeader_iff frame).mpr ⟨hd, hc, by omega⟩
      have hreg := decodeFrame_of_reachesHeader frame hr
      rw [decodeRegion_eq frame (by omega)] at hreg
      refine .inr ?_
      cases hh : headerOf frame with
      | none =>
        rw [hh] at hreg
        exact .inl ⟨hr, rfl, hreg⟩
      | some q =>
        obtain ⟨v, a, c, d⟩ := q
        refine .inr ?_
        cases hk : rtnErr d with
        | some k =>
          simp only [hh, hk] at hreg
          exact .inl ⟨v, a, c, d, k, hr, rfl, hk, hreg⟩
        | none =>
          have hl : reachesLength frame = true := (reachesLength_iff frame).mpr ⟨hr, v, a, c, d, hh, hk⟩
          have hbody := decodeFrame_of_header frame v a c d hr hh hk
          rw [decodeBody_eq frame (by omega)] at hbody
          refine .inr ?_
          cases hw : fourAt frame 9 with
          | none =>
            rw [hw] at hbody
            exact .inl ⟨hl, rfl, hbody⟩
          | some w =>
            refine .inr ?_
            by_cases hv : w = lengthNat (w % 4096)
            · have hi : reachesInfo frame (w % 4096) = true :=
                (reachesInfo_iff frame _).mpr ⟨hl, by omega, by rw [hw, ← hv]⟩
              have hinfo := decodeFrame_of_info frame v a c d (w % 4096) hi hh
              rw [decodeInfo_nat frame _ (by omega)] at hinfo
              refine .inr ?_
              have good : ∀ bs, infoIs frame (w % 4096) bs = true →
                  decodesTo frame ⟨BitVec.ofNat 8 v, BitVec.ofNat 8 a, BitVec.ofNat 8 c, BitVec.ofNat 8 d, bs⟩
                    (w % 4096) = true := by
                intro bs hbs
                obtain ⟨h1, h2, h3, h4⟩ := headerOf_bytes frame v a c d hh
                simp only [decodesTo, hi, hh, hbs, BitVec.toNat_ofNat, Nat.reducePow, Nat.mod_eq_of_lt h1,
                  Nat.mod_eq_of_lt h2, Nat.mod_eq_of_lt h3, Nat.mod_eq_of_lt h4, Bool.and_true, beq_self_eq_true]
              by_cases h0 : w % 4096 = 0
              · rw [if_pos h0] at hinfo
                exact .inr (.inr (.inr ⟨_, _, good [] (by simp [infoIs, h0]), hinfo⟩))
              rw [if_neg h0] at hinfo
              cases hf : infoFits frame (w % 4096) with
              | false =>
                simp only [hf, if_true] at hinfo
                exact .inl ⟨_, hi, by omega, hf, hinfo⟩
              | true =>
                simp only [hf, Bool.true_eq_false, if_false] at hinfo
                refine .inr ?_
                by_cases ho : w % 4096 % 2 = 1
                · rw [if_pos ho] at hinfo
                  exact .inl ⟨_, hi, hf, ho, hinfo⟩
                rw [if_neg ho] at hinfo
                refine .inr ?_
                cases hb : bytesAt frame 13 (w % 4096 / 2) with
                | none =>
                  rw [hb] at hinfo
                  exact .inl ⟨_, hi, by omega, hf, by omega, hb, hinfo⟩
                | some bs =>
                  rw [hb] at hinfo
                  refine .inr ⟨_, _, good bs ?_, hinfo⟩
                  simp only [infoIs, if_neg h0, hf, hb, beq_self_eq_true, Bool.and_true, Bool.true_and, decide_eq_true_eq]
                  omega
            · rw [hw] at hbody
              simp only [if_neg hv] at hbody
              exact .inl ⟨w, hl, rfl, hv, hbody⟩

/-! ### The region of a framed region -/

theorem frameOf_length (region : List Byte) : (frameOf region).length = region.length + 6 := by
  simp only [frameOf, Text4.toList, List.length_append, List.length_cons, List.length_nil]
  omega

theorem regionOf_frameOf (region : List Byte) : regionOf (frameOf region) = region := by
  have : frameOf region = 0x7E :: (region ++ ((fourChars (fchkNat region)).toList ++ [0x0D])) := by
    simp [frameOf]
  rw [regionOf, frameOf_length, this]
  simp

end Sys2Proof.Machine
end

