-- ==== Sys2Proof/Laws/State.lean ====
section
/-! SUPPORT. What each update of State leaves in each field. -/

namespace Sys2Proof.Machine

@[simp] theorem deliver_pending (r : Response) (s : State) : (deliver r s).pending = s.pending := rfl
@[simp] theorem deliver_delivered (r : Response) (s : State) : (deliver r s).delivered = s.delivered ++ [r] := rfl
@[simp] theorem resetBlock_pending (s : State) : (resetBlock s).pending = s.pending := rfl
@[simp] theorem resetBlock_delivered (s : State) : (resetBlock s).delivered = s.delivered := rfl
@[simp] theorem presentNext_pending (r : Request) (s : State) :
    (presentNext r s).pending = .issue r :: s.pending := rfl
@[simp] theorem presentNext_delivered (r : Request) (s : State) : (presentNext r s).delivered = s.delivered := rfl
@[simp] theorem reset_pending : State.reset.pending = [] := rfl
@[simp] theorem reset_delivered : State.reset.delivered = [] := rfl

end Sys2Proof.Machine
end

