-- ==== Sys2Proof/Laws/Ops.lean ====
section
/-! SUPPORT. What each shared operation can do: one lemma for each, cited in place of its definition. -/

namespace Sys2Proof.Machine

open Sys2Proof.Safety

theorem complete_next (v : Result) (s : State) : complete v s = .next (after s (.ok v)) := rfl

theorem raise_next (k : ErrKind) (s : State) : raise k s = .next (after s (.error k)) := rfl

theorem finish_ok {α : Type} (mk : α → Result) (a : α) (s : State) :
    finish mk (.ok a) s = .next (after s (.ok (mk a))) := rfl

theorem finish_error {α : Type} (mk : α → Result) (k : ErrKind) (s : State) :
    finish mk (.error k) s = .next (after s (.error k)) := rfl

/-- Two answers are the same exactly when the responses are. -/
@[simp] theorem after_inj (s : State) (r r' : Response) : after s r = after s r' ↔ r = r' := by
  simp [after]

theorem finish_eq_error {α : Type} (mk : α → Result) (x : Except ErrKind α) (s : State) (k : ErrKind) :
    finish mk x s = .next (after s (.error k)) ↔ x = .error k := by
  cases x with
  | ok a => simp [finish_ok]
  | error k' => simp [finish_error]

theorem finish_eq_ok {α : Type} (mk : α → Result) (x : Except ErrKind α) (s : State) (v : Result) :
    finish mk x s = .next (after s (.ok v)) ↔ ∃ a, x = .ok a ∧ mk a = v := by
  cases x with
  | ok a => simp [finish_ok]
  | error k' => simp [finish_error]

theorem accept_cases (bound : InLenBound) (r : Request) :
    (∃ op, decode r = .error (.reservedOp op) ∧ accept bound r = .error (.reservedOp op)) ∨
    (∃ i, decode r = .ok i ∧ i.wellFormed bound = true ∧ accept bound r = .ok i) ∨
    (∃ i, decode r = .ok i ∧ i.wellFormed bound = false ∧ accept bound r = .error .inputTooLong) := by
  unfold accept
  split
  · exact .inl ⟨_, ‹_›, rfl⟩
  · next i h =>
    by_cases hw : i.wellFormed bound = true
    · exact .inr (.inl ⟨i, h, hw, by simp [hw]⟩)
    · exact .inr (.inr ⟨i, h, by simpa using hw, by simp [hw]⟩)

/-- Everything taking the host's next move can do. -/
theorem fetchWith_cases (bound : InLenBound) (s : State) :
    (s.pending = [] ∧ fetchWith bound s = .idle) ∨
    (∃ rest, s.pending = .reset :: rest ∧ fetchWith bound s = .wasReset { s with pending := rest }) ∨
    (∃ r rest e, s.pending = .issue r :: rest ∧ accept bound r = .error e ∧ fetchWith bound s = .refuse e) ∨
    (∃ r rest i, s.pending = .issue r :: rest ∧ accept bound r = .ok i ∧
      fetchWith bound s = .run i { s with pending := rest }) := by
  unfold fetchWith
  split
  · exact .inl ⟨‹_›, rfl⟩
  · exact .inr (.inl ⟨_, ‹_›, rfl⟩)
  · next r rest h =>
    cases ha : accept bound r with
    | error e => exact .inr (.inr (.inl ⟨r, rest, e, h, ha, rfl⟩))
    | ok i => exact .inr (.inr (.inr ⟨r, rest, i, h, ha, rfl⟩))

end Sys2Proof.Machine
end

