-- ==== Sys2Proof/Laws/PerInstr.lean ====
section
/-! SUPPORT. Statements about every operation as something the host presents, one lemma per constructor. -/

namespace Sys2Proof.Laws.OpInTable

/-- The operation's code is one of the eleven of 30 R61, and raising MAX_IN_LEN never makes it unpresentable. -/
def Statement (i : Instr) : Prop :=
  (encode i).op.toNat ≤ 10 ∧
    ∀ m n : Nat, m ≤ n → i.wellFormed (some m) = true → i.wellFormed (some n) = true

theorem admits_mono (k m n : Nat) (hmn : m ≤ n) (h : InLenBound.admits (some m) k = true) :
    InLenBound.admits (some n) k = true := by
  simp only [InLenBound.admits, decide_eq_true_eq] at *
  omega

theorem b2h (b : Byte) : Statement (.b2h b) :=
  ⟨by show (0x0#4).toNat ≤ 10; decide, fun _ _ _ _ => rfl⟩

theorem bs2h (bytes : List Byte) : Statement (.bs2h bytes) :=
  ⟨by show (0x1#4).toNat ≤ 10; decide, fun m n hmn h => admits_mono bytes.length m n hmn h⟩

theorem h2b (hi lo : Byte) : Statement (.h2b hi lo) :=
  ⟨by show (0x2#4).toNat ≤ 10; decide, fun _ _ _ _ => rfl⟩

theorem hs2b (hexText : List Byte) : Statement (.hs2b hexText) :=
  ⟨by show (0x3#4).toNat ≤ 10; decide, fun m n hmn h => admits_mono hexText.length m n hmn h⟩

theorem fchk (asciiBody : List Byte) : Statement (.fchk asciiBody) :=
  ⟨by show (0x4#4).toNat ≤ 10; decide, fun m n hmn h => admits_mono asciiBody.length m n hmn h⟩

theorem lchk (lenid : Lenid) : Statement (.lchk lenid) :=
  ⟨by show (0x5#4).toNat ≤ 10; decide, fun _ _ _ _ => rfl⟩

theorem lpack (lenid : Lenid) : Statement (.lpack lenid) :=
  ⟨by show (0x6#4).toNat ≤ 10; decide, fun _ _ _ _ => rfl⟩

theorem lunpk (lengthText : Text4) : Statement (.lunpk lengthText) :=
  ⟨by show (0x7#4).toNat ≤ 10; decide, fun _ _ _ _ => rfl⟩

theorem rtncls (code : Byte) : Statement (.rtncls code) :=
  ⟨by show (0x8#4).toNat ≤ 10; decide, fun _ _ _ _ => rfl⟩

theorem enc (pdu : Pdu) : Statement (.enc pdu) :=
  ⟨by show (0x9#4).toNat ≤ 10; decide, fun _ _ _ _ => rfl⟩

theorem dec (frame : List Byte) : Statement (.dec frame) :=
  ⟨by show (0xA#4).toNat ≤ 10; decide, fun m n hmn h => admits_mono frame.length m n hmn h⟩

end Sys2Proof.Laws.OpInTable
end

