-- ==== Sys2Proof/Tests/Slice0.lean ====
section
/-! SUPPORT. Tests: expected values are the vectors of spec/95_test_vectors.md (named S…, V-… there) and the encodings of
30 R61; then the witnesses of the statements' hypotheses. -/

namespace Sys2Proof.Tests

open Sys2Proof.Machine Sys2Proof.Safety

/-- A text as its ASCII codes (00 section 6). -/
def text (cs : List Char) : List Byte := cs.map (fun c => BitVec.ofNat 8 c.toNat)

/-- A frame written in the notation of 30 R63, without its SOI and EOI. -/
def framed (cs : List Char) : List Byte := [0x7E] ++ text cs ++ [0x0D]

/-- Operands with a different value in every field. -/
def sampleOperands : Operands where
  b := 0x11
  bytes := [0x12]
  hi := 0x13
  lo := 0x14
  hexText := [0x15]
  asciiBody := [0x16]
  lenid := 0x717
  lengthText := ⟨0x18, 0x19, 0x1A, 0x1B⟩
  code := 0x1C
  pdu := ⟨0x1D, 0x1E, 0x1F, 0x20, [0x21]⟩
  frame := [0x22]

/-- ACC1 of 95: the frame of the source's encode example (S4', S6). -/
def acc1 : List Byte := framed ['2','1','0','1','6','0','4','2','0','0','0','0','F','D','B','0']

/-- The PDU of ACC1. -/
def pdu1 : Pdu := ⟨0x21, 0x01, 0x60, 0x42, []⟩

/-- The frame of V-ENC2, with one byte of Info. -/
def frame2 : List Byte :=
  framed ['2','0','0','1','4','0','4','3','E','0','0','2','0','0','F','D','3','B']

/-- The PDU of V-ENC2. -/
def pdu2 : Pdu := ⟨0x20, 0x01, 0x40, 0x43, [0x00]⟩

/-- A state with one request to issue. -/
def withRequest (r : Request) : State := { pending := [.issue r], delivered := [] }

/-! ### WellFormed refuses an ill-formed term for each of its checks -/

theorem test_wellFormed_bs2h : Instr.wellFormed (some 2) (.bs2h [1, 2, 3]) = false := by decide
theorem test_wellFormed_hs2b : Instr.wellFormed (some 2) (.hs2b [1, 2, 3]) = false := by decide
theorem test_wellFormed_fchk : Instr.wellFormed (some 2) (.fchk [1, 2, 3]) = false := by decide
theorem test_wellFormed_dec : Instr.wellFormed (some 2) (.dec [1, 2, 3]) = false := by decide
theorem test_wellFormed_enc_unbounded : Instr.wellFormed (some 2) (.enc ⟨0, 0, 0, 0, [1, 2, 3]⟩) = true := by decide
theorem test_wellFormed_at_bound : Instr.wellFormed (some 3) (.dec [1, 2, 3]) = true := by decide

/-! ### Decoding: each operation from its word of 30 R61, on the operands of its row -/

theorem test_decode_b2h : decode ⟨0b0000#4, sampleOperands⟩ = .ok (.b2h 0x11) := by decide
theorem test_decode_bs2h : decode ⟨0b0001#4, sampleOperands⟩ = .ok (.bs2h [0x12]) := by decide
theorem test_decode_h2b : decode ⟨0b0010#4, sampleOperands⟩ = .ok (.h2b 0x13 0x14) := by decide
theorem test_decode_hs2b : decode ⟨0b0011#4, sampleOperands⟩ = .ok (.hs2b [0x15]) := by decide
theorem test_decode_fchk : decode ⟨0b0100#4, sampleOperands⟩ = .ok (.fchk [0x16]) := by decide
theorem test_decode_lchk : decode ⟨0b0101#4, sampleOperands⟩ = .ok (.lchk 0x717) := by decide
theorem test_decode_lpack : decode ⟨0b0110#4, sampleOperands⟩ = .ok (.lpack 0x717) := by decide
theorem test_decode_lunpk : decode ⟨0b0111#4, sampleOperands⟩ = .ok (.lunpk ⟨0x18, 0x19, 0x1A, 0x1B⟩) := by decide
theorem test_decode_rtncls : decode ⟨0b1000#4, sampleOperands⟩ = .ok (.rtncls 0x1C) := by decide
theorem test_decode_enc : decode ⟨0b1001#4, sampleOperands⟩ = .ok (.enc ⟨0x1D, 0x1E, 0x1F, 0x20, [0x21]⟩) := by decide
theorem test_decode_dec : decode ⟨0b1010#4, sampleOperands⟩ = .ok (.dec [0x22]) := by decide
theorem test_decode_reserved_first : decode ⟨0b1011#4, sampleOperands⟩ = .error (.reservedOp 0xB) := by decide
theorem test_decode_reserved_last : decode ⟨0b1111#4, sampleOperands⟩ = .error (.reservedOp 0xF) := by decide

/-! ### The answers of 95, at most two an operation -/

/-- V-B2H3. -/
theorem test_b2h_letter_and_digit : answerOf (.b2h 0xA5) State.reset = some (.ok (.b2h 0x41 0x35)) := by decide
/-- V-B2H6: the EOI value is written as digits. -/
theorem test_b2h_eoi_value : answerOf (.b2h 0x0D) State.reset = some (.ok (.b2h 0x30 0x44)) := by decide
/-- V-BS2H2. -/
theorem test_bs2h_five_bytes : answerOf (.bs2h [0x00, 0x7E, 0x0D, 0xAB, 0xFF]) State.reset
    = some (.ok (.bs2h (text ['0','0','7','E','0','D','A','B','F','F']))) := by decide
/-- V-BS2H1. -/
theorem test_bs2h_empty : answerOf (.bs2h []) State.reset = some (.ok (.bs2h [])) := by decide
/-- V-H2B2. -/
theorem test_h2b_mixed_case : answerOf (.h2b 0x61 0x46) State.reset = some (.ok (.h2b 0xAF)) := by decide
/-- V-H2B9: the value just below the letters. -/
theorem test_h2b_rejects_at_sign : answerOf (.h2b 0x40 0x30) State.reset
    = some (.error .invalidHexCharacter) := by decide
/-- V-HS2B5. -/
theorem test_hs2b_mixed_case : answerOf (.hs2b (text ['0','0','f','F','7','e'])) State.reset
    = some (.ok (.hs2b [0x00, 0xFF, 0x7E])) := by decide
/-- V-HS2B3: the length is tested before the characters. -/
theorem test_hs2b_odd_before_bad : answerOf (.hs2b (text ['0','G','1'])) State.reset
    = some (.error .oddLengthHex) := by decide
/-- S3, the source's reference vector. -/
theorem test_fchk_reference : answerOf (.fchk (text ['2','0','0','1','4','0','4','3','E','0','0','2','0','0'])) State.reset
    = some (.ok (.fchk 0xFD3B ⟨0x46, 0x44, 0x33, 0x42⟩)) := by decide
/-- V-FCHK11: bytes of 0x80 and more are summed unsigned. -/
theorem test_fchk_unsigned : answerOf (.fchk [0xFF, 0xFF]) State.reset
    = some (.ok (.fchk 0xFE02 ⟨0x46, 0x45, 0x30, 0x32⟩)) := by decide
/-- V-LCHK14. -/
theorem test_lchk_all_ones : answerOf (.lchk 0xFFF) State.reset = some (.ok (.lchk 0x3)) := by decide
/-- V-LCHK11: a nibble sum of 16. -/
theorem test_lchk_wraps_to_zero : answerOf (.lchk 0x448) State.reset = some (.ok (.lchk 0x0)) := by decide
/-- V-LPACK5. -/
theorem test_lpack_thirteen_bytes : answerOf (.lpack 0x01A) State.reset
    = some (.ok (.lpack 0x501A ⟨0x35, 0x30, 0x31, 0x41⟩)) := by decide
/-- V-LPACK9. -/
theorem test_lpack_largest : answerOf (.lpack 0xFFE) State.reset
    = some (.ok (.lpack 0x4FFE ⟨0x34, 0x46, 0x46, 0x45⟩)) := by decide
/-- V-LUNPK2. -/
theorem test_lunpk_lower_case : answerOf (.lunpk ⟨0x65, 0x30, 0x30, 0x32⟩) State.reset
    = some (.ok (.lunpk 0x002)) := by decide
/-- V-LUNPK6. -/
theorem test_lunpk_corrupt : answerOf (.lunpk ⟨0x46, 0x30, 0x30, 0x32⟩) State.reset
    = some (.error .lChecksumMismatch) := by decide
/-- V-RTN6. -/
theorem test_rtncls_named_error : answerOf (.rtncls 0x05) State.reset = some (.error .commandFormatError) := by decide
/-- V-RTN11: the first code above the reserved range. -/
theorem test_rtncls_passthrough_edge : answerOf (.rtncls 0xF0) State.reset = some (.ok .rtncls) := by decide
/-- S6, the source's encode example. -/
theorem test_enc_source_example : answerOf (.enc pdu1) State.reset
    = some (.ok (.enc [0x7E, 0x32, 0x31, 0x30, 0x31, 0x36, 0x30, 0x34, 0x32, 0x30, 0x30, 0x30, 0x30, 0x46, 0x44, 0x42, 0x30,
        0x0D])) := by decide
/-- V-ENC2, built on the source's reference vector. -/
theorem test_enc_one_byte : answerOf (.enc pdu2) State.reset = some (.ok (.enc frame2)) := by decide
/-- V-DEC40: lower case in LENGTH and INFO. -/
theorem test_dec_lower_case : answerOf (.dec (framed ['2','1','0','1','6','0','0','0','c','0','0','4','a','b','c','d',
    'F','B','F','5'])) State.reset = some (.ok (.dec ⟨0x21, 0x01, 0x60, 0x00, [0xAB, 0xCD]⟩)) := by decide
/-- V-DEC18: the response error comes before the LENGTH check. -/
theorem test_dec_priority : answerOf (.dec (framed ['2','1','0','1','6','0','0','5','F','0','0','2','F','D','9','9']))
    State.reset = some (.error .commandFormatError) := by decide

/-- The 256-entry table of 40 R81, row by row. -/
theorem test_char2nib_table :
    let rows : List (Nat × List Nat) :=
      [(3, [0, 1, 2, 3, 4, 5, 6, 7, 8, 9]), (4, [99, 10, 11, 12, 13, 14, 15]), (6, [99, 10, 11, 12, 13, 14, 15])]
    ∀ c : Byte, char2nib c = match ((rows.lookup (c.toNat / 16)).getD [])[c.toNat % 16]? with
      | none => .error .invalidHexCharacter
      | some n => if n = 99 then .error .invalidHexCharacter else .ok (BitVec.ofNat 4 n) := by decide

/-- 30 R61 and log entry 6: the word of ENC, placed at reset, is the operation the next step runs. -/
theorem test_withFetchWord_runs_enc :
    step (State.reset.withFetchWord 8 0x9) = exec (.enc ⟨0, 0, 0, 0, []⟩) State.reset := rfl

/-! ### Witnesses of the statements' hypotheses -/

/-- DEC answers what its algorithm does. -/
theorem exec_dec_of (frame : List Byte) (x : Except ErrKind Pdu) (s : State) (h : decodeFrame frame = x) :
    exec (.dec frame) s = finish .dec x s := by
  rw [← h]
  rfl

/-- ENC answers what its algorithm does. -/
theorem exec_enc_of (p : Pdu) (x : Except ErrKind (List Byte)) (s : State) (h : encodeFrame p = x) :
    exec (.enc p) s = finish .enc x s := by
  rw [← h]
  rfl

theorem acc1_decodes (s : State) : exec (.dec acc1) s = .next (after s (.ok (.dec pdu1))) :=
  exec_dec_of _ (.ok pdu1) _ (by decide)

theorem pdu2_encodes (s : State) : exec (.enc pdu2) s = .next (after s (.ok (.enc frame2))) :=
  exec_enc_of _ (.ok frame2) _ (by decide)

theorem witness_ResetLeavesTheBlockIdle : State.reset.pending = [] := rfl

theorem witness_ResetMoveHasNoEffect :
    ({ pending := [.reset], delivered := [] } : State).pending = .reset :: [] := rfl

theorem witness_StepRunsTheDecodedOperation :
    (withRequest (encode (.dec acc1))).pending = .issue (encode (.dec acc1)) :: [] ∧
    decode (encode (.dec acc1)) = .ok (.dec acc1) ∧ Instr.wellFormed Config.maxInLen (.dec acc1) = true := by decide

/-- One byte over the bound, for each of the four operations; and at the bound, and for ENC, the other clause. -/
theorem witness_InputsBeyondMaxInLenAreRefused :
    decode (encode (.dec [1, 2, 3])) = .ok (.dec [1, 2, 3]) ∧ decode (encode (.fchk [1, 2, 3])) = .ok (.fchk [1, 2, 3]) ∧
    decode (encode (.bs2h [1, 2, 3])) = .ok (.bs2h [1, 2, 3]) ∧ decode (encode (.hs2b [1, 2, 3])) = .ok (.hs2b [1, 2, 3]) ∧
    2 < ([1, 2, 3] : List Byte).length ∧ ¬ 3 < ([1, 2, 3] : List Byte).length ∧
    decode (encode (.enc ⟨0, 0, 0, 0, [1, 2, 3]⟩)) = .ok (.enc ⟨0, 0, 0, 0, [1, 2, 3]⟩) ∧
    fetchWith (some 2) (withRequest (encode (.dec [1, 2, 3]))) = .refuse .inputTooLong ∧
    fetchWith (some 3) (withRequest (encode (.dec [1, 2, 3]))) = .run (.dec [1, 2, 3]) State.reset ∧
    fetchWith (some 2) (withRequest (encode (.enc ⟨0, 0, 0, 0, [1, 2, 3]⟩)))
      = .run (.enc ⟨0, 0, 0, 0, [1, 2, 3]⟩) State.reset := by decide

theorem witness_ReservedOpCodesAreRefused :
    0xB ≤ (0xB#4).toNat ∧ 0xB ≤ (0xF#4).toNat ∧
    fetchWith none (withRequest ⟨0xB#4, sampleOperands⟩) = .refuse (.reservedOp 0xB) ∧
    fetchWith none (withRequest ⟨0xF#4, sampleOperands⟩) = .refuse (.reservedOp 0xF) := by decide

/-- The three cases of a step: idle, reset, operation. -/
theorem witness_StepTakesOneMoveInOrder :
    stepWith none State.reset = .next State.reset ∧
    stepWith none { pending := [.reset], delivered := [] } = .next State.reset ∧
    stepWith none (withRequest (encode (.dec acc1))) = .next (after State.reset (.ok (.dec pdu1))) :=
  ⟨rfl, rfl, acc1_decodes State.reset⟩

theorem witness_StepStopsOnlyOnReservedOpCodes :
    step (withRequest ⟨0xB#4, sampleOperands⟩) = .refused (.reservedOp 0xB) := rfl

theorem witness_ErrorsStayInTheRaiseMatrix (s : State) :
    exec (.h2b 0x47 0x30) s = .next (after s (.error .invalidHexCharacter)) := rfl

theorem witness_StepKeepsDeliveredSound :
    DeliveredSound (withRequest (encode (.dec acc1))) ∧
    stepWith none (withRequest (encode (.dec acc1))) = .next (after State.reset (.ok (.dec pdu1))) :=
  ⟨by intro r hr; simp [withRequest] at hr, acc1_decodes State.reset⟩

theorem witness_LegalHostIsNeverRefused :
    PendingLegal (some 18) { pending := [.issue (encode (.dec acc1)), .reset, .issue (encode (.enc pdu1))], delivered := [] } := by
  unfold PendingLegal
  decide

theorem witness_DecodedOperationCarriesTheOpCode :
    decode (encode (.dec acc1)) = .ok (.dec acc1) ∧ (encode (.dec acc1)).op.toNat ≤ 0xA := by decide

theorem witness_Bs2hDeliversPairsInOrder : ([0xAB] : List Byte)[0]? = some 0xAB := by decide

theorem witness_H2bDeliversTheByte :
    digitOf 0x61 = some 10 ∧ digitOf 0x46 = some 15 ∧ digitOf 0x30 = some 0 ∧ digitOf 0x39 = some 9 ∧
    digitOf 0x47 = none ∧ digitOf 0x2F = none ∧ digitOf 0x3A = none ∧ digitOf 0x40 = none ∧ digitOf 0x60 = none ∧
    digitOf 0x67 = none := by decide

/-- One character is odd; no character is even and gives no byte; two give one byte or none. -/
theorem witness_Hs2bDeliversTheBytes :
    ([0x30] : List Byte).length % 2 = 1 ∧ bytesAt [] 0 0 = some [] ∧ bytesAt [0x37, 0x65] 0 1 = some [0x7E] ∧
    bytesAt [0x30, 0x47] 0 1 = none := by decide

theorem witness_HexTextRoundTrip :
    ([0x61, 0x46] : List Byte).length % 2 = 0 ∧ ∀ c ∈ ([0x61, 0x46] : List Byte), digitOf c ≠ none := by decide

/-- `E002`, `F002` and `G002` of 95. -/
theorem witness_LunpkVerifiesTheLengthField :
    fourAt [0x45, 0x30, 0x30, 0x32] 0 = some 0xE002 ∧ 0xE002 / 4096 = lchkNat (0xE002 % 4096) ∧
    fourAt [0x46, 0x30, 0x30, 0x32] 0 = some 0xF002 ∧ 0xF002 / 4096 ≠ lchkNat (0xF002 % 4096) ∧
    fourAt [0x47, 0x30, 0x30, 0x32] 0 = none := by decide

theorem witness_ChecksumsCancelTheirSums (s : State) :
    exec (.fchk []) s = .next (after s (.ok (.fchk 0 ⟨0x30, 0x30, 0x30, 0x30⟩))) ∧
    exec (.lpack 0) s = .next (after s (.ok (.lpack 0 ⟨0x30, 0x30, 0x30, 0x30⟩))) := ⟨rfl, rfl⟩

/-- The edges of the code ranges. -/
theorem witness_RtnclsClassifiesTheCode :
    rtnErr 0x00 = none ∧ rtnErr 0x01 = some .versionError ∧ rtnErr 0x07 = some .asciiError ∧ rtnErr 0x08 = none ∧
    rtnErr 0x7F = none ∧ rtnErr 0x80 = some .otherError ∧ rtnErr 0xEF = some .otherError ∧ rtnErr 0xF0 = none ∧
    rtnErr 0xFF = none := by decide

/-- The largest Info ENC takes and the smallest it rejects. -/
theorem witness_EncDeliversTheFrame :
    (⟨0, 0, 0, 0, List.replicate 0x7FF 0⟩ : Pdu).info.length ≤ 0x7FF ∧
    0x7FF < (⟨0, 0, 0, 0, List.replicate 0x800 0⟩ : Pdu).info.length := by
  simp only [List.length_replicate]
  decide

theorem witness_EncFramesHaveLegalShape (s : State) :
    exec (.enc pdu2) s = .next (after s (.ok (.enc frame2))) := pdu2_encodes s

/-- A frame without Info and one with Info. -/
theorem witness_DecDeliversThePdu : decodesTo acc1 pdu1 0 = true ∧ decodesTo frame2 pdu2 2 = true := by decide

theorem witness_DecSucceedsOnlyOnTheTenSteps (s : State) :
    exec (.dec acc1) s = .next (after s (.ok (.dec pdu1))) := acc1_decodes s

theorem witness_DecIgnoresTrailingCharacters (s : State) :
    exec (.dec (frameOf (regionOf acc1))) s = .next (after s (.ok (.dec pdu1))) :=
  exec_dec_of _ (.ok pdu1) _ (by decide)

/-- A passthrough `Cid2` and one that decode rejects (V-ENC7). -/
theorem witness_FrameRoundTrip :
    pdu1.info.length ≤ 0x7FF ∧ rtnErr pdu1.cid2.toNat = none ∧
    rtnErr (⟨0x21, 0x01, 0x60, 0x05, []⟩ : Pdu).cid2.toNat = some .commandFormatError := by decide

theorem witness_DecodedPduReencodes (s : State) :
    exec (.dec acc1) s = .next (after s (.ok (.dec pdu1))) := acc1_decodes s

/-- The first and the last character of the body of ACC1, changed to `3`. -/
theorem witness_BodyMutationIsDetected (s : State) :
    exec (.dec acc1) s = .next (after s (.ok (.dec pdu1))) ∧ 1 ≤ 1 ∧ 12 < acc1.length - 5 ∧
    acc1[1]? ≠ some 0x33 ∧ acc1[12]? ≠ some 0x33 := ⟨acc1_decodes s, by decide⟩

theorem witness_LegalBoundAdmitsEveryEncFrame (s : State) :
    maxEncFrameBytes ≤ 4112 ∧ exec (.enc pdu2) s = .next (after s (.ok (.enc frame2))) ∧
    decode (encode (.dec frame2)) = .ok (.dec frame2) ∧
    (withRequest (encode (.dec frame2))).pending = .issue (encode (.dec frame2)) :: [] :=
  ⟨by decide, pdu2_encodes s, by decide, rfl⟩

theorem witness_ResponseErrorsExactlyOnTheirCodes :
    isResponseError .versionError = true ∧ isResponseError .otherError = true ∧
    isResponseError .invalidHexCharacter = false := by decide

/-- One input for each case of each error kind (V-DEC1, 4, 7, 8, 15, 31, 39, 37, 33, 32, 17). -/
theorem witness_ErrorsExactly :
    decodeFrame [] = .error .frameTooShort ∧
    decodeFrame (text ['~','2','1','0','1','6','0','4','2']) = .error .invalidDelimiters ∧
    decodeFrame (framed ['2','1','0','0','0','0','0']) = .error .checksumMismatch ∧
    decodeFrame (framed ['2','1','0','F','F','6','D']) = .error .malformedFrame ∧
    decodeFrame (framed ['2','G','0','1','6','0','4','2','0','0','0','0','F','D','9','A']) = .error .invalidHexCharacter ∧
    decodeFrame (framed ['2','1','0','1','6','0','4','2','0','0','0','G','F','D','9','9']) = .error .invalidHexCharacter ∧
    decodeFrame (framed ['2','1','0','1','6','0','0','0','E','0','0','2','0','G','F','D','2','8'])
      = .error .invalidHexCharacter ∧
    decodeFrame (framed ['2','1','0','1','6','0','0','0','F','0','0','1','0','F','D','6','F']) = .error .oddLengthHex ∧
    decodeFrame (framed ['2','1','0','1','6','0','0','0','E','0','0','2','F','D','9','F']) = .error .frameLengthMismatch ∧
    decodeFrame (framed ['2','1','0','1','6','0','0','0','F','0','0','2','0','0','F','D','3','E'])
      = .error .lChecksumMismatch ∧
    decodeFrame (framed ['2','1','0','1','6','0','0','5','0','0','0','0','F','D','B','1']) = .error .commandFormatError := by
  decide

/-- The stages those frames reach. -/
theorem witness_ErrorStages :
    reachesHeader (framed ['2','G','0','1','6','0','4','2','0','0','0','0','F','D','9','A']) = true ∧
    headerOf (framed ['2','G','0','1','6','0','4','2','0','0','0','0','F','D','9','A']) = none ∧
    reachesLength (framed ['2','1','0','1','6','0','4','2','0','0','0','G','F','D','9','9']) = true ∧
    fourAt (framed ['2','1','0','1','6','0','4','2','0','0','0','G','F','D','9','9']) 9 = none ∧
    reachesInfo (framed ['2','1','0','1','6','0','0','0','E','0','0','2','0','G','F','D','2','8']) 2 = true ∧
    infoFits (framed ['2','1','0','1','6','0','0','0','E','0','0','2','0','G','F','D','2','8']) 2 = true ∧
    reachesInfo (framed ['2','1','0','1','6','0','0','0','F','0','0','1','0','F','D','6','F']) 1 = true ∧
    infoFits (framed ['2','1','0','1','6','0','0','0','F','0','0','1','0','F','D','6','F']) 1 = true ∧
    reachesInfo (framed ['2','1','0','1','6','0','0','0','E','0','0','2','F','D','9','F']) 2 = true ∧
    infoFits (framed ['2','1','0','1','6','0','0','0','E','0','0','2','F','D','9','F']) 2 = false := by decide

theorem witness_StatusCodesFollowTheTable :
    statusCode (statusOf (.ok .rtncls)) = 0x00 ∧ statusCode (statusOf (.error .infoTooLarge)) = 0x18 ∧
    statusCode (.failed .otherError) = statusCode (statusOf (.error .otherError)) := by decide

end Sys2Proof.Tests
end

