-- ==== Sys2Proof/Proofs/Scope.lean ====
section
/-! SUPPORT. What ENC delivers and how long it is, when a step runs a request, and with these the statement of 00_scope.md:
a MAX_IN_LEN that 00 R4 calls legal admits every frame of ENC. -/

namespace Sys2Proof.Machine

open Sys2Proof.Safety

/-! ### The frames ENC delivers -/

theorem exec_enc (p : Pdu) (s : State) : exec (.enc p) s = finish .enc (encodeFrame p) s := rfl

theorem exec_enc_eq_ok_iff (p : Pdu) (frame : List Byte) (s : State) :
    exec (.enc p) s = .next (after s (.ok (.enc frame))) ↔ encodeFrame p = .ok frame := by
  simp [exec_enc, finish_eq_ok]

theorem encodeFrame_eq_ok_iff (p : Pdu) (frame : List Byte) :
    encodeFrame p = .ok frame ↔ p.info.length ≤ 0x7FF ∧ frameOf (bodyOf p) = frame := by
  rw [encodeFrame_eq]
  split
  · next hlarge => simp [Nat.not_le.mpr hlarge]
  · next hfits => simp [Nat.not_lt.mp hfits]

theorem bodyOf_length (p : Pdu) : (bodyOf p).length = 12 + 2 * p.info.length := by
  simp only [bodyOf, twoChars, Text4.toList, hexText_length, List.length_append, List.length_cons, List.length_nil]

/-- 30 R55: the length of a frame of ENC, in the bytes of `Info`. -/
theorem encodeFrame_ok_length {p : Pdu} {frame : List Byte} (h : encodeFrame p = .ok frame) :
    frame.length = 18 + 2 * p.info.length := by
  obtain ⟨-, rfl⟩ := (encodeFrame_eq_ok_iff p frame).mp h
  rw [frameOf_length, bodyOf_length]
  omega

theorem encodeFrame_ok_length_le {p : Pdu} {frame : List Byte} (h : encodeFrame p = .ok frame) :
    frame.length ≤ maxEncFrameBytes := by
  have hinfo : p.info.length ≤ 0x7FF := ((encodeFrame_eq_ok_iff p frame).mp h).1
  rw [encodeFrame_ok_length h, maxEncFrameBytes]
  omega

/-! ### A step on a request the host may present -/

theorem accept_of_wellFormed {bound : InLenBound} {r : Request} {i : Instr} (hd : decode r = .ok i)
    (hw : i.wellFormed bound = true) : accept bound r = .ok i := by
  simp [accept, hd, hw]

/-- 00 R5, 70 R202, for every MAX_IN_LEN. -/
theorem stepWith_of_wellFormed {bound : InLenBound} {s : State} {r : Request} {rest : List HostEvent} {i : Instr}
    (hp : s.pending = .issue r :: rest) (hd : decode r = .ok i) (hw : i.wellFormed bound = true) :
    stepWith bound s = exec i { pending := rest, delivered := s.delivered } := by
  simp [stepWith, fetchWith, hp, accept_of_wellFormed hd hw]

theorem wellFormed_dec_some (n : Nat) (frame : List Byte) :
    (Instr.dec frame).wellFormed (some n) = true ↔ frame.length ≤ n := by
  simp [Instr.wellFormed, InLenBound.admits]

/-- Settles O42: a frame of ENC has at most 4112 bytes, so the bound admits it and the step runs DEC. -/
theorem legalBoundAdmitsEveryEncFrame : Obligations.LegalBoundAdmitsEveryEncFrame := by
  intro n p frame s t r rest hn henc hd hp
  have hlen : frame.length ≤ maxEncFrameBytes := encodeFrame_ok_length_le ((exec_enc_eq_ok_iff p frame s).mp henc)
  exact stepWith_of_wellFormed hp hd ((wellFormed_dec_some n frame).mpr (hlen.trans hn))

end Sys2Proof.Machine
end

section
/-! SUPPORT. The response of each operation as a function of the operation alone, everything a step can do, and with these the
statements of 10_state.md: responses depend on operands alone, every step keeps the delivered responses sound, and the
request that encodes an operation decodes to it. -/

namespace Sys2Proof.Machine

open Sys2Proof.Safety

/-! ### The response of an operation -/

/-- How an operation ends, by how its algorithm ended (60 R150): what `finish` delivers. -/
def endWith {α : Type} (mk : α → Result) (x : Except ErrKind α) : Response :=
  match x with
  | .ok a => .ok (mk a)
  | .error k => .error k

/-- The one response of each operation, from its operands alone (10 R19, R37): what `exec` delivers. -/
def responseOf (i : Instr) : Response :=
  match i with
  | .b2h b => .ok (.b2h (byteToHexPair b).1 (byteToHexPair b).2)
  | .bs2h bytes => .ok (.bs2h (bytesToHex bytes))
  | .h2b hi lo => endWith .h2b (hexPairToByte hi lo)
  | .hs2b hexText => endWith .hs2b (hexToBytes hexText)
  | .fchk asciiBody => .ok (.fchk (fchk16 asciiBody) (hex4 (fchk16 asciiBody)))
  | .lchk lenid => .ok (.lchk (lchk lenid))
  | .lpack lenid => .ok (.lpack (length16 lenid) (hex4 (length16 lenid)))
  | .lunpk lengthText => endWith .lunpk (unpackLength lengthText)
  | .rtncls code => endWith (fun _ => .rtncls) (classifyResponseCode code)
  | .enc pdu => endWith .enc (encodeFrame pdu)
  | .dec frame => endWith .dec (decodeFrame frame)

theorem finish_next {α : Type} (mk : α → Result) (x : Except ErrKind α) (s : State) :
    finish mk x s = .next (after s (endWith mk x)) := by
  cases x <;> rfl

/-- Every operation answers a next state, with its response delivered and all else as before. -/
theorem exec_next (i : Instr) (s : State) : exec i s = .next (after s (responseOf i)) := by
  cases i with
  | b2h | bs2h | fchk | lchk | lpack => exact complete_next _ s
  | h2b | hs2b | lunpk | rtncls | enc | dec => exact finish_next _ _ s

/-- Settles O9: the response is `responseOf`, which does not take the state. -/
theorem responseDependsOnOperandsAlone : Obligations.ResponseDependsOnOperandsAlone :=
  fun i => ⟨responseOf i, exec_next i⟩

/-! ### What a step can do -/

theorem accept_eq_ok_iff {bound : InLenBound} {r : Request} {i : Instr} :
    accept bound r = .ok i ↔ decode r = .ok i ∧ i.wellFormed bound = true := by
  constructor
  · intro ha
    obtain ⟨op, -, he⟩ | ⟨j, hd, hw, hj⟩ | ⟨j, -, -, he⟩ := accept_cases bound r
    · simp [he] at ha
    · obtain rfl : j = i := by simpa [hj] using ha
      exact ⟨hd, hw⟩
    · simp [he] at ha
  · rintro ⟨hd, hw⟩
    exact accept_of_wellFormed hd hw

/-- Everything a step that answers a next state can have done: stayed idle, taken a reset, or run the decoded operation. -/
theorem stepWith_next_cases {bound : InLenBound} {s t : State} (h : stepWith bound s = .next t) :
    (s.pending = [] ∧ t = s) ∨
    (∃ rest, s.pending = .reset :: rest ∧ t = { s with pending := rest }) ∨
    (∃ r rest i, s.pending = .issue r :: rest ∧ decode r = .ok i ∧ i.wellFormed bound = true ∧
      t = after { s with pending := rest } (responseOf i)) := by
  obtain ⟨hp, hf⟩ | ⟨rest, hp, hf⟩ | ⟨r, rest, e, hp, -, hf⟩ | ⟨r, rest, i, hp, ha, hf⟩ := fetchWith_cases bound s
  · exact .inl ⟨hp, by simpa [stepWith, hf] using h.symm⟩
  · exact .inr (.inl ⟨rest, hp, by simpa [stepWith, hf] using h.symm⟩)
  · simp [stepWith, hf] at h
  · obtain ⟨hd, hw⟩ := accept_eq_ok_iff.mp ha
    exact .inr (.inr ⟨r, rest, i, hp, hd, hw, by simpa [stepWith, hf, exec_next] using h.symm⟩)

/-! ### Texts of upper-case hex digits -/

theorem isUpperHex_hexChar {d : Nat} (h : d < 16) : isUpperHex (hexChar d) = true := by
  interval_cases d <;> decide

theorem twoChars_all_isUpperHex {v : Nat} (h : v < 256) : (twoChars v).all isUpperHex = true := by
  simp [twoChars, isUpperHex_hexChar (show v / 16 < 16 by omega), isUpperHex_hexChar (show v % 16 < 16 by omega)]

theorem fourChars_all_isUpperHex {v : Nat} (h : v < 65536) : (fourChars v).toList.all isUpperHex = true := by
  simp [fourChars, Text4.toList, isUpperHex_hexChar (show v / 4096 < 16 by omega),
    isUpperHex_hexChar (show v / 256 % 16 < 16 by omega), isUpperHex_hexChar (show v / 16 % 16 < 16 by omega),
    isUpperHex_hexChar (show v % 16 < 16 by omega)]

theorem hexText_all_isUpperHex (bytes : List Byte) : (hexText bytes).all isUpperHex = true := by
  induction bytes with
  | nil => rfl
  | cons b rest ih => rw [hexText_cons, List.all_append, twoChars_all_isUpperHex b.isLt, ih, Bool.and_self]

/-- 30 R55: the region of a PDU holds upper-case digits only. -/
theorem bodyOf_all_isUpperHex {p : Pdu} (h : p.info.length ≤ 0x7FF) : (bodyOf p).all isUpperHex = true := by
  have hlen : lengthNat (2 * p.info.length) < 65536 := lengthNat_lt (by omega)
  simp only [bodyOf, List.all_append, twoChars_all_isUpperHex p.ver.isLt, twoChars_all_isUpperHex p.addr.isLt,
    twoChars_all_isUpperHex p.cid1.isLt, twoChars_all_isUpperHex p.cid2.isLt, fourChars_all_isUpperHex hlen,
    hexText_all_isUpperHex, Bool.and_self]

/-! ### A framed region passes the first five steps of DEC -/

theorem delimited_frameOf {region : List Byte} (h : 3 ≤ region.length) : delimited (frameOf region) = true := by
  have hlast : (frameOf region).getLast? = some 0x0D := List.getLast?_concat
  rw [List.getLast?_eq_getElem?] at hlast
  have hlen : 9 ≤ (frameOf region).length := by rw [frameOf_length]; omega
  simp only [delimited, hlast, hlen, decide_true, beq_self_eq_true, Bool.and_true, Bool.true_and]
  rfl

theorem chksumGood_frameOf (region : List Byte) : chksumGood (frameOf region) = true := by
  have hdrop : (frameOf region).drop (region.length + 1) = (fourChars (fchkNat region)).toList ++ [0x0D] := by
    simp [frameOf]
  have hidx : (frameOf region).length - 5 = region.length + 1 := by rw [frameOf_length]; omega
  rw [chksumGood, regionOf_frameOf, hidx, hdrop]
  simp [Text4.toList]

theorem reachesHeader_frameOf {region : List Byte} (h : 12 ≤ region.length) : reachesHeader (frameOf region) = true :=
  (reachesHeader_iff _).mpr
    ⟨delimited_frameOf (by omega), chksumGood_frameOf region, by rw [frameOf_length]; omega⟩

/-! ### What DEC's ten steps leave of a PDU -/

theorem bytesAt_length {s bytes : List Byte} {i k : Nat} (h : bytesAt s i k = some bytes) : bytes.length = k := by
  induction k generalizing i bytes with
  | zero =>
    obtain rfl : [] = bytes := by simpa [bytesAt] using h
    rfl
  | succ n ih =>
    unfold bytesAt at h
    split at h
    · next v vs _ hvs =>
      obtain rfl : BitVec.ofNat 8 v :: vs = bytes := by simpa using h
      rw [List.length_cons, ih hvs]
    · cases h

theorem decodesTo_iff (frame : List Byte) (p : Pdu) (lenid : Nat) :
    decodesTo frame p lenid = true ↔
      reachesInfo frame lenid = true ∧
      headerOf frame = some (p.ver.toNat, p.addr.toNat, p.cid1.toNat, p.cid2.toNat) ∧
      infoIs frame lenid p.info = true := by
  simp only [decodesTo, Bool.and_eq_true, beq_iff_eq, and_assoc]

/-- Step 9 leaves half as many bytes as LENID counts characters. -/
theorem infoIs_length {frame info : List Byte} {lenid : Nat} (h : infoIs frame lenid info = true) :
    lenid = 2 * info.length := by
  unfold infoIs at h
  split at h
  · next h0 =>
    obtain rfl : info = [] := by simpa using h
    exact h0
  · simp only [Bool.and_eq_true, decide_eq_true_eq, beq_iff_eq] at h
    obtain ⟨⟨-, heven⟩, hbytes⟩ := h
    have := bytesAt_length hbytes
    omega

/-- 42 R126: LENID has 12 bits, so a decoded Info has at most 0x7FF bytes. -/
theorem decodesTo_info_length {frame : List Byte} {p : Pdu} {lenid : Nat} (h : decodesTo frame p lenid = true) :
    p.info.length ≤ 0x7FF := by
  obtain ⟨hreach, -, hinfo⟩ := (decodesTo_iff frame p lenid).mp h
  obtain ⟨-, hlt, -⟩ := (reachesInfo_iff frame lenid).mp hreach
  have := infoIs_length hinfo
  omega

/-- Step 7: the Cid2 of a decoded PDU classified as success. -/
theorem decodesTo_rtnErr {frame : List Byte} {p : Pdu} {lenid : Nat} (h : decodesTo frame p lenid = true) :
    rtnErr p.cid2.toNat = none := by
  obtain ⟨hreach, hheader, -⟩ := (decodesTo_iff frame p lenid).mp h
  obtain ⟨hlength, -, -⟩ := (reachesInfo_iff frame lenid).mp hreach
  obtain ⟨-, v, a, c, d, hheader', hd⟩ := (reachesLength_iff frame).mp hlength
  obtain ⟨-, -, -, rfl⟩ : p.ver.toNat = v ∧ p.addr.toNat = a ∧ p.cid1.toNat = c ∧ p.cid2.toNat = d := by
    simpa [hheader] using hheader'
  exact hd

/-- Of everything DEC can answer, only the last case is a PDU. -/
theorem decodesTo_of_decodeFrame_ok {frame : List Byte} {p : Pdu} (h : decodeFrame frame = .ok p) :
    ∃ lenid, decodesTo frame p lenid = true := by
  simpa [h] using decodeFrame_cases frame

/-! ### Every response is sound -/

theorem soundResponse_bs2h (bytes : List Byte) : soundResponse (.ok (.bs2h (bytesToHex bytes))) = true := by
  simp only [soundResponse, bytesToHex_eq_hexText, hexText_all_isUpperHex, hexText_length, Nat.mul_mod_right,
    decide_true, Bool.and_self]

theorem soundResponse_b2h (b : Byte) :
    soundResponse (.ok (.b2h (byteToHexPair b).1 (byteToHexPair b).2)) = true := by
  simpa [soundResponse, byteToHexPair_eq, twoChars] using twoChars_all_isUpperHex b.isLt

theorem soundResponse_lpack (lenid : Lenid) :
    soundResponse (.ok (.lpack (length16 lenid) (hex4 (length16 lenid)))) = true := by
  simp only [soundResponse, hex4_eq_fourChars, length16_toNat, lengthNat_mod _ lenid.isLt, beq_self_eq_true,
    decide_true, Bool.and_self]

theorem soundResponse_enc {p : Pdu} {frame : List Byte} (h : encodeFrame p = .ok frame) :
    soundResponse (.ok (.enc frame)) = true := by
  have heven : frame.length % 2 = 0 := by rw [encodeFrame_ok_length h]; omega
  have hbound : frame.length ≤ maxEncFrameBytes := encodeFrame_ok_length_le h
  obtain ⟨hinfo, rfl⟩ := (encodeFrame_eq_ok_iff p frame).mp h
  have hreach : reachesHeader (frameOf (bodyOf p)) = true :=
    reachesHeader_frameOf (by rw [bodyOf_length]; omega)
  simp only [soundResponse, hreach, heven, hbound, regionOf_frameOf, bodyOf_all_isUpperHex hinfo, decide_true,
    Bool.and_self]

theorem soundResponse_dec {frame : List Byte} {p : Pdu} (h : decodeFrame frame = .ok p) :
    soundResponse (.ok (.dec p)) = true := by
  obtain ⟨lenid, hd⟩ := decodesTo_of_decodeFrame_ok h
  simp only [soundResponse, decodesTo_info_length hd, decodesTo_rtnErr hd, decide_true, beq_self_eq_true, Bool.and_self]

/-- An error kind is always sound, so only the results of an operation have to be. -/
theorem soundResponse_endWith {α : Type} {mk : α → Result} {x : Except ErrKind α}
    (h : ∀ a, x = .ok a → soundResponse (.ok (mk a)) = true) : soundResponse (endWith mk x) = true := by
  cases x with
  | ok a => exact h a rfl
  | error k => rfl

theorem soundResponse_responseOf (i : Instr) : soundResponse (responseOf i) = true := by
  cases i with
  | b2h b => exact soundResponse_b2h b
  | bs2h bytes => exact soundResponse_bs2h bytes
  | fchk asciiBody => simp [responseOf, soundResponse, hex4_eq_fourChars]
  | lchk lenid => rfl
  | lpack lenid => exact soundResponse_lpack lenid
  | h2b | hs2b | lunpk | rtncls => exact soundResponse_endWith fun _ _ => rfl
  | enc p => exact soundResponse_endWith fun _ => soundResponse_enc
  | dec frame => exact soundResponse_endWith fun _ => soundResponse_dec

theorem deliveredSound_after {s : State} {r : Response} (hs : DeliveredSound s) (hr : soundResponse r = true) :
    DeliveredSound (after s r) := by
  intro q hq
  obtain hq | rfl : q ∈ s.delivered ∨ q = r := by simpa [after] using hq
  · exact hs q hq
  · exact hr

/-- Settles O11: an idle step and a reset deliver nothing, and an operation adds its one response, which is sound. -/
theorem stepKeepsDeliveredSound : Obligations.StepKeepsDeliveredSound := by
  intro bound s t hs hstep
  obtain ⟨-, rfl⟩ | ⟨rest, -, rfl⟩ | ⟨r, rest, i, -, -, -, rfl⟩ := stepWith_next_cases hstep
  · exact hs
  · exact hs
  · exact deliveredSound_after hs (soundResponse_responseOf i)

/-! ### Encoding and decoding a request -/

/-- Settles O16: for each operation the code `encode` sets selects its own row of 30 R61 in `decode`, whose operands are the
ones `encode` filled in. -/
theorem decodeInvertsEncode : Obligations.DecodeInvertsEncode := by
  intro i
  cases i <;> rfl

end Sys2Proof.Machine
end

section
/-! SUPPORT. The characters between the delimiters of a frame, and with them the statement of 30_encoding.md: the shape of every
frame ENC delivers. -/

namespace Sys2Proof.Machine

open Sys2Proof.Safety

/-! ### The ends and the inside of a frame -/

theorem delimited_iff (frame : List Byte) :
    delimited frame = true ↔
      9 ≤ frame.length ∧ frame[0]? = some 0x7E ∧ frame[frame.length - 1]? = some 0x0D := by
  simp only [delimited, Bool.and_eq_true, decide_eq_true_eq, beq_iff_eq, and_assoc]

/-- The inside of a frame is its region followed by the checksum text. -/
theorem frameOf_getElem?_succ {region : List Byte} {i : Nat} (h : i < region.length + 4) :
    (frameOf region)[i + 1]? = (region ++ (fourChars (fchkNat region)).toList)[i]? := by
  have hi : i < (region ++ (fourChars (fchkNat region)).toList).length := by simpa [Text4.toList] using h
  rw [← List.getElem?_append_left (l₂ := [0x0D]) hi]
  simp only [frameOf, List.append_assoc, List.nil_append, List.cons_append, List.getElem?_cons_succ]

/-- 30 R55: a region of upper-case digits leaves only upper-case digits between the delimiters, the checksum being four more. -/
theorem frameOf_inside_isUpperHex {region : List Byte} {j : Nat} {c : Byte} (hregion : region.all isUpperHex = true)
    (hfirst : 1 ≤ j) (hlast : j + 1 < (frameOf region).length) (hc : (frameOf region)[j]? = some c) :
    isUpperHex c = true := by
  obtain ⟨i, rfl⟩ := Nat.exists_eq_add_of_le' hfirst
  rw [frameOf_length] at hlast
  rw [frameOf_getElem?_succ (by omega)] at hc
  have hinside : (region ++ (fourChars (fchkNat region)).toList).all isUpperHex = true := by
    rw [List.all_append, hregion, fourChars_all_isUpperHex (fchkNat_lt region), Bool.and_self]
  exact List.all_eq_true.mp hinside c (List.mem_of_getElem? hc)

/-- Settles O35: a frame of ENC is a framed region of at least 12 upper-case digits, so it is delimited and its inside is
upper-case hex. -/
theorem encFramesHaveLegalShape : Obligations.EncFramesHaveLegalShape := by
  intro p s frame hexec
  have henc : encodeFrame p = .ok frame := (exec_enc_eq_ok_iff p frame s).mp hexec
  have hlen := encodeFrame_ok_length henc
  have hbound := encodeFrame_ok_length_le henc
  obtain ⟨hinfo, rfl⟩ := (encodeFrame_eq_ok_iff p frame).mp henc
  obtain ⟨-, hsoi, heoi⟩ :=
    (delimited_iff _).mp (delimited_frameOf (region := bodyOf p) (by rw [bodyOf_length]; omega))
  exact ⟨hlen, hbound, hsoi, heoi, fun _ _ => frameOf_inside_isUpperHex (bodyOf_all_isUpperHex hinfo)⟩

end Sys2Proof.Machine
end

section
/-! SUPPORT. What the hex operations deliver, the hex text of a byte sequence character by character and as the upper-case form
of the text it was read from, and with these the statements of 40_hexcodec.md. -/

namespace Sys2Proof.Machine

open Sys2Proof.Safety

/-! ### The hex operations in the words of Safety -/

theorem exec_bs2h (bytes : List Byte) (s : State) :
    exec (.bs2h bytes) s = .next (after s (.ok (.bs2h (hexText bytes)))) := by
  rw [exec_next, responseOf, bytesToHex_eq_hexText]

theorem exec_h2b (hi lo : Byte) (s : State) : exec (.h2b hi lo) s = finish .h2b (hexPairToByte hi lo) s := rfl

theorem exec_hs2b (t : List Byte) (s : State) : exec (.hs2b t) s = finish .hs2b (hexToBytes t) s := rfl

theorem hexPairToByte_of_digits {hi lo : Byte} {h l : Nat} (hhi : digitOf hi = some h) (hlo : digitOf lo = some l) :
    hexPairToByte hi lo = .ok (BitVec.ofNat 8 (16 * h + l)) := by
  simp [hexPairToByte_eq, hhi, hlo]

theorem hexPairToByte_of_bad {hi lo : Byte} (h : digitOf hi = none ∨ digitOf lo = none) :
    hexPairToByte hi lo = .error .invalidHexCharacter := by
  rw [hexPairToByte_eq]
  obtain hhi | hlo := h
  · simp [hhi]
  · cases digitOf hi <;> simp [hlo]

theorem hexToBytes_of_odd {t : List Byte} (h : t.length % 2 = 1) : hexToBytes t = .error .oddLengthHex := by
  rw [hexToBytes_eq, if_pos h]

theorem hexToBytes_of_bytesAt {t bytes : List Byte} (heven : t.length % 2 = 0)
    (hb : bytesAt t 0 (t.length / 2) = some bytes) : hexToBytes t = .ok bytes := by
  simp [hexToBytes_eq, heven, hb]

theorem hexToBytes_of_bad {t : List Byte} (heven : t.length % 2 = 0) (hb : bytesAt t 0 (t.length / 2) = none) :
    hexToBytes t = .error .invalidHexCharacter := by
  simp [hexToBytes_eq, heven, hb]

/-! ### The text of a byte sequence -/

/-- 40 R83: byte `k` of a sequence is written at the indices `2k` and `2k + 1` of its text. -/
theorem hexText_getElem? {bytes : List Byte} {k : Nat} {b : Byte} (h : bytes[k]? = some b) :
    (hexText bytes)[2 * k]? = some (hexChar (b.toNat / 16)) ∧
    (hexText bytes)[2 * k + 1]? = some (hexChar (b.toNat % 16)) := by
  induction bytes generalizing k with
  | nil => simp at h
  | cons c rest ih =>
    rw [hexText_cons]
    cases k with
    | zero =>
      obtain rfl : c = b := by simpa using h
      exact ⟨rfl, rfl⟩
    | succ j => exact ih (k := j) (by simpa using h)

theorem hexToBytes_hexText (bytes : List Byte) : hexToBytes (hexText bytes) = .ok bytes := by
  have hlen := hexText_length bytes
  have hhalf : (hexText bytes).length / 2 = bytes.length := by omega
  have hread : bytesAt (hexText bytes) 0 bytes.length = some bytes := by
    simpa using bytesAt_hexText bytes []
  exact hexToBytes_of_bytesAt (by omega) (by rw [hhalf, hread])

/-! ### The text of decoded bytes -/

/-- 40 R86: writing the value of an accepted character gives its upper-case form. -/
theorem hexChar_of_digitOf {c : Byte} {d : Nat} (h : digitOf c = some d) : hexChar d = upper c := by
  have hall : ∀ c : Byte, ∀ d ∈ digitOf c, hexChar d = upper c := by decide
  exact hall c d h

/-- The byte of two accepted characters is written as these characters in upper case. -/
theorem twoChars_of_digits {hi lo : Byte} {h l : Nat} (hhi : digitOf hi = some h) (hlo : digitOf lo = some l) :
    twoChars (BitVec.ofNat 8 (16 * h + l)).toNat = [upper hi, upper lo] := by
  have hh := digitOf_lt hi h hhi
  have hl := digitOf_lt lo l hlo
  have hv : (BitVec.ofNat 8 (16 * h + l)).toNat = 16 * h + l := by
    rw [BitVec.toNat_ofNat]
    omega
  have hdiv : (16 * h + l) / 16 = h := by omega
  have hmod : (16 * h + l) % 16 = l := by omega
  rw [hv, twoChars, hdiv, hmod, hexChar_of_digitOf hhi, hexChar_of_digitOf hlo]

/-- A text of `2k` accepted characters reads as `k` bytes, whose text is the given one in upper case. -/
theorem exists_bytesAt_hexText_eq_map_upper {k : Nat} {t : List Byte} (hlen : t.length = 2 * k)
    (hdigits : ∀ c ∈ t, digitOf c ≠ none) :
    ∃ bytes, bytesAt t 0 k = some bytes ∧ hexText bytes = t.map upper := by
  induction k generalizing t with
  | zero =>
    obtain rfl : t = [] := List.length_eq_zero_iff.mp hlen
    exact ⟨[], rfl, rfl⟩
  | succ n ih =>
    match t, hlen with
    | hi :: lo :: rest, hlen =>
      obtain ⟨bytes, hread, htext⟩ :=
        ih (t := rest) (by simpa [Nat.mul_succ] using hlen) fun c hc => hdigits c (by simp [hc])
      obtain ⟨h, hhi⟩ := Option.ne_none_iff_exists'.mp (hdigits hi (by simp))
      obtain ⟨l, hlo⟩ := Option.ne_none_iff_exists'.mp (hdigits lo (by simp))
      refine ⟨BitVec.ofNat 8 (16 * h + l) :: bytes, ?_, ?_⟩
      · have hpair : pairAt (hi :: lo :: rest) 0 = some (16 * h + l) := by simp [pairAt, hhi, hlo]
        simp [bytesAt, hpair, bytesAt_cons_cons, hread]
      · rw [hexText_cons, twoChars_of_digits hhi hlo, htext]
        rfl
    | [_], hlen => simp only [List.length_singleton] at hlen; omega
    | [], hlen => simp only [List.length_nil] at hlen; omega

/-! ### The statements -/

/-- Settles O22: the delivered text is `hexText bytes`, which holds byte `k` at `2k` and `2k + 1`. -/
theorem bs2hDeliversPairsInOrder : Obligations.Bs2hDeliversPairsInOrder :=
  fun bytes s => ⟨hexText bytes, exec_bs2h bytes s, hexText_length bytes, fun _ _ => hexText_getElem?⟩

/-- Settles O23: H2B ends as the pair of its two characters reads. -/
theorem h2bDeliversTheByte : Obligations.H2bDeliversTheByte := by
  intro hi lo s
  refine ⟨fun h l hhi hlo => ?_, fun hbad => ?_⟩
  · rw [exec_h2b, hexPairToByte_of_digits hhi hlo, finish_ok]
  · rw [exec_h2b, hexPairToByte_of_bad hbad, finish_error]

/-- Settles O24: HS2B ends by the parity of the length first, then by how the pairs read. -/
theorem hs2bDeliversTheBytes : Obligations.Hs2bDeliversTheBytes := by
  intro t s
  refine ⟨fun hodd => ?_, fun bytes heven hb => ?_, fun heven hb => ?_⟩
  · rw [exec_hs2b, hexToBytes_of_odd hodd, finish_error]
  · rw [exec_hs2b, hexToBytes_of_bytesAt heven hb, finish_ok]
  · rw [exec_hs2b, hexToBytes_of_bad heven hb, finish_error]

/-- Settles O25: a text BS2H wrote reads back, and the bytes of an accepted text are written as its upper-case form, pair by
pair. -/
theorem hexTextRoundTrip : Obligations.HexTextRoundTrip := by
  constructor
  · intro bytes s
    refine ⟨hexText bytes, exec_bs2h bytes s, fun s' => ?_⟩
    rw [exec_hs2b, hexToBytes_hexText, finish_ok]
  · intro t s heven hdigits
    obtain ⟨bytes, hread, htext⟩ := exists_bytesAt_hexText_eq_map_upper (k := t.length / 2) (by omega) hdigits
    refine ⟨bytes, ?_, fun s' => ?_⟩
    · rw [exec_hs2b, hexToBytes_of_bytesAt heven hread, finish_ok]
    · rw [exec_bs2h, htext]

/-- Settles O19: `nib2char` reads HEXLUT at an index below its length 16. -/
theorem nibblesReadTheHexTable : Obligations.NibblesReadTheHexTable :=
  ⟨fun n => ⟨charAt_eq hexLut n.toNat n.isLt, isUpperHex_hexChar n.isLt⟩, rfl, rfl, rfl, rfl⟩

/-- Settles O21: B2H completes with the pair of its byte, whose nibbles are the quotient and the remainder by 16. -/
theorem b2hDeliversTheHexPair : Obligations.B2hDeliversTheHexPair := by
  intro b s
  rw [exec_next, responseOf, byteToHexPair_eq]

end Sys2Proof.Machine
end

section
/-! SUPPORT. What the checksum operations deliver, what LUNPK reads from four characters and from a text LPACK wrote, the sums
the two checksums cancel, and with these the statements of 41_checksum.md. -/

namespace Sys2Proof.Machine

open Sys2Proof.Safety

/-! ### The checksums and the LENGTH value as numbers -/

theorem fchk16_eq_ofNat (text : List Byte) : fchk16 text = BitVec.ofNat 16 (fchkNat text) := by
  rw [← fchk16_toNat, BitVec.ofNat_toNat, BitVec.setWidth_eq]

theorem lchk_eq_ofNat (lenid : Lenid) : lchk lenid = BitVec.ofNat 4 (lchkNat lenid.toNat) := by
  rw [← lchk_toNat, BitVec.ofNat_toNat, BitVec.setWidth_eq]

theorem length16_eq_ofNat (lenid : Lenid) : length16 lenid = BitVec.ofNat 16 (lengthNat lenid.toNat) := by
  rw [← length16_toNat, BitVec.ofNat_toNat, BitVec.setWidth_eq]

/-- 30 R53: bits 15:12 of a LENGTH value are its LCHKSUM. -/
theorem lengthNat_div {n : Nat} (h : n < 4096) : lengthNat n / 4096 = lchkNat n := by
  unfold lengthNat
  omega

/-! ### FCHK, LCHK and LPACK -/

/-- Settles O27: FCHK completes with `fchk16`, whose value is `fchkNat`, and with its text. -/
theorem fchkDeliversTheFrameChecksum : Obligations.FchkDeliversTheFrameChecksum := by
  intro text s
  rw [exec_next, responseOf, hex4_fchk16, fchk16_eq_ofNat]

/-- Settles O28: LCHK completes with `lchk`, whose value is `lchkNat`. -/
theorem lchkDeliversTheLengthChecksum : Obligations.LchkDeliversTheLengthChecksum := by
  intro lenid s
  rw [exec_next, responseOf, lchk_eq_ofNat]

/-- Settles O29: LPACK completes with `length16`, whose value is `lengthNat`, and with its text. -/
theorem lpackDeliversTheLengthField : Obligations.LpackDeliversTheLengthField := by
  intro lenid s
  rw [exec_next, responseOf, hex4_length16, length16_eq_ofNat]

/-! ### LUNPK -/

theorem exec_lunpk (t : Text4) (s : State) : exec (.lunpk t) s = finish .lunpk (unpackLength t) s := rfl

/-- 41 R106: on a LENGTH value within 16 bits, the carried checksum against the recomputed one. -/
theorem verifyLength_ofNat {v : Nat} (h : v < 65536) :
    verifyLength (BitVec.ofNat 16 v) =
      if v / 4096 = lchkNat (v % 4096) then .ok (BitVec.ofNat 12 (v % 4096)) else .error .lChecksumMismatch := by
  have hv : (BitVec.ofNat 16 v).toNat = v := by
    rw [BitVec.toNat_ofNat, Nat.mod_eq_of_lt h]
  have hid : lenidOf (BitVec.ofNat 16 v) = BitVec.ofNat 12 (v % 4096) := by
    rw [← BitVec.toNat_inj, lenidOf_toNat, hv, BitVec.toNat_ofNat, Nat.mod_mod]
  have hiff : v = lengthNat (v % 4096) ↔ v / 4096 = lchkNat (v % 4096) := by
    unfold lengthNat
    omega
  simp only [verifyLength_eq, hv, hid, hiff]

theorem unpackLength_of_bad {t : Text4} (h : fourAt t.toList 0 = none) :
    unpackLength t = .error .invalidHexCharacter :=
  (unpackLength_value t).2 h

theorem unpackLength_of_value {t : Text4} {v : Nat} (h : fourAt t.toList 0 = some v) :
    unpackLength t =
      if v / 4096 = lchkNat (v % 4096) then .ok (BitVec.ofNat 12 (v % 4096)) else .error .lChecksumMismatch := by
  obtain ⟨hverify, hlt⟩ := (unpackLength_value t).1 v h
  rw [hverify, verifyLength_ofNat hlt]

/-- Settles O30: LUNPK ends with InvalidHexCharacter where the characters form no value, else as the value verifies. -/
theorem lunpkVerifiesTheLengthField : Obligations.LunpkVerifiesTheLengthField := by
  intro t s
  refine ⟨fun hbad => ?_, fun v hv hgood => ?_, fun v hv hdiffer => ?_⟩
  · rw [exec_lunpk, unpackLength_of_bad hbad, finish_error]
  · rw [exec_lunpk, unpackLength_of_value hv, if_pos hgood, finish_ok]
  · rw [exec_lunpk, unpackLength_of_value hv, if_neg hdiffer, finish_error]

/-! ### LUNPK after LPACK -/

/-- Four characters are the pairs of the two bytes, high-order byte first. -/
theorem fourChars_toList (v : Nat) : (fourChars v).toList = twoChars (v / 256) ++ twoChars (v % 256) := by
  have h0 : v / 256 / 16 = v / 4096 := by omega
  have h2 : v % 256 / 16 = v / 16 % 16 := by omega
  have h3 : v % 256 % 16 = v % 16 := by omega
  simp only [fourChars, Text4.toList, twoChars, h0, h2, h3, List.cons_append, List.nil_append]

/-- 30 R52, R57: the text of a 16-bit value reads back as the value. -/
theorem fourAt_fourChars {v : Nat} (h : v < 65536) : fourAt (fourChars v).toList 0 = some v := by
  have hhi : pairAt (twoChars (v / 256) ++ twoChars (v % 256)) 0 = some (v / 256) :=
    pairAt_twoChars _ (by omega) _
  have hlo : pairAt (twoChars (v / 256) ++ twoChars (v % 256)) (0 + 2) = some (v % 256) := by
    rw [← pairAt_twoChars (v % 256) (by omega) [], List.append_nil]
    exact pairAt_append (twoChars (v / 256)) (twoChars (v % 256)) 0
  simp only [fourAt, fourChars_toList, hhi, hlo, Nat.div_add_mod]

/-- The text of a packed LENGTH unpacks to its LENID. -/
theorem unpackLength_fourChars_lengthNat (lenid : Lenid) :
    unpackLength (fourChars (lengthNat lenid.toNat)) = .ok lenid := by
  have hmod : lengthNat lenid.toNat % 4096 = lenid.toNat := lengthNat_mod _ lenid.isLt
  have hgood : lengthNat lenid.toNat / 4096 = lchkNat (lengthNat lenid.toNat % 4096) := by
    rw [hmod, lengthNat_div lenid.isLt]
  rw [unpackLength_of_value (fourAt_fourChars (lengthNat_lt lenid.isLt)), if_pos hgood, hmod, BitVec.ofNat_toNat,
    BitVec.setWidth_eq]

/-- Settles O31: LPACK writes the characters of `lengthNat`, which read back with a checksum that verifies. -/
theorem lunpkInvertsLpack : Obligations.LunpkInvertsLpack := by
  intro lenid s
  refine ⟨_, _, lpackDeliversTheLengthField lenid s, fun s' => ?_⟩
  rw [exec_lunpk, unpackLength_fourChars_lengthNat, finish_ok]

/-! ### The sums and their checksums -/

theorem byteSum_add_fchkNat (text : List Byte) : (byteSum text + fchkNat text) % 65536 = 0 := by
  unfold fchkNat
  omega

theorem lchkNat_add_nibbleSum (n : Nat) : (lchkNat n + nibbleSum n) % 16 = 0 := by
  unfold lchkNat
  omega

/-- The four nibbles of a LENGTH value are its LCHKSUM and the three of its LENID. -/
theorem lengthNat_nibbles {n : Nat} (h : n < 4096) :
    lengthNat n / 4096 + lengthNat n / 256 % 16 + lengthNat n / 16 % 16 + lengthNat n % 16 =
      lchkNat n + nibbleSum n := by
  unfold lengthNat nibbleSum
  omega

/-- Settles O32: FCHK delivers `fchkNat` and LPACK `lengthNat`, each the complement of the sum it stands beside (41 R108). -/
theorem checksumsCancelTheirSums : Obligations.ChecksumsCancelTheirSums := by
  constructor
  · intro text s chk t hexec
    obtain ⟨rfl, -⟩ : BitVec.ofNat 16 (fchkNat text) = chk ∧ fourChars (fchkNat text) = t := by
      simpa [fchkDeliversTheFrameChecksum text s] using hexec
    rw [← fchk16_eq_ofNat, fchk16_toNat, byteSum_add_fchkNat]
  · intro lenid s v t hexec
    obtain ⟨rfl, -⟩ : BitVec.ofNat 16 (lengthNat lenid.toNat) = v ∧ fourChars (lengthNat lenid.toNat) = t := by
      simpa [lpackDeliversTheLengthField lenid s] using hexec
    rw [← length16_eq_ofNat, length16_toNat, lengthNat_nibbles lenid.isLt, lchkNat_add_nibbleSum]

/-! ### The text of a 16-bit value -/

/-- 41 R101: the four characters are the hex text of the high byte and the low byte. -/
theorem hex4_toList (v : Half) : (hex4 v).toList = bytesToHex [hiByte v, loByte v] := rfl

/-- Settles O26: `hex4` writes the characters of the value's four nibbles, which are the pairs BS2H writes for its two bytes. -/
theorem sixteenBitTextIsBigEndian : Obligations.SixteenBitTextIsBigEndian := by
  intro v
  refine ⟨?_, fun s => ?_, ?_⟩
  · rw [hex4_eq_fourChars, fourChars, Text4.toList]
  · rw [exec_next, responseOf, hex4_toList, hiByte, loByte]
  · rw [hex4_eq_fourChars, fourChars_all_isUpperHex v.isLt]

end Sys2Proof.Machine
end

section
/-! SUPPORT. What RTNCLS, ENC and DEC deliver: a frame decodes to a PDU exactly when it passes the ten steps, the frame of a PDU
passes them, characters after a decodable region change none of them, and a changed body fails step 4. With these the
statements of 42_framecodec.md. -/

namespace Sys2Proof.Machine

open Sys2Proof.Safety

/-! ### RTNCLS and ENC -/

theorem exec_rtncls (code : Byte) (s : State) :
    exec (.rtncls code) s = finish (fun _ => .rtncls) (classifyResponseCode code) s := rfl

theorem classifyResponseCode_of_success {code : Byte} (h : rtnErr code.toNat = none) :
    classifyResponseCode code = .ok () := by
  simp [classifyResponseCode_eq, h]

theorem classifyResponseCode_of_error {code : Byte} {k : ErrKind} (h : rtnErr code.toNat = some k) :
    classifyResponseCode code = .error k := by
  simp [classifyResponseCode_eq, h]

/-- Settles O33: RTNCLS ends as RTNTAB classifies the code, which is `rtnErr`. -/
theorem rtnclsClassifiesTheCode : Obligations.RtnclsClassifiesTheCode := by
  intro code s
  refine ⟨fun hsuccess => ?_, fun k herror => ?_⟩
  · rw [exec_rtncls, classifyResponseCode_of_success hsuccess, finish_ok]
  · rw [exec_rtncls, classifyResponseCode_of_error herror, finish_error]

theorem encodeFrame_of_fits {p : Pdu} (h : p.info.length ≤ 0x7FF) : encodeFrame p = .ok (frameOf (bodyOf p)) :=
  (encodeFrame_eq_ok_iff p _).mpr ⟨h, rfl⟩

theorem encodeFrame_of_large {p : Pdu} (h : 0x7FF < p.info.length) : encodeFrame p = .error .infoTooLarge := by
  rw [encodeFrame_eq, if_pos h]

/-- Settles O34: ENC ends by the size of Info, with the framed body where it fits. -/
theorem encDeliversTheFrame : Obligations.EncDeliversTheFrame := by
  intro p s
  refine ⟨fun hfits => ?_, fun hlarge => ?_⟩
  · rw [exec_enc, encodeFrame_of_fits hfits, finish_ok]
  · rw [exec_enc, encodeFrame_of_large hlarge, finish_error]

/-! ### DEC and its ten steps -/

theorem exec_dec (frame : List Byte) (s : State) : exec (.dec frame) s = finish .dec (decodeFrame frame) s := rfl

theorem exec_dec_eq_ok_iff (frame : List Byte) (p : Pdu) (s : State) :
    exec (.dec frame) s = .next (after s (.ok (.dec p))) ↔ decodeFrame frame = .ok p := by
  simp [exec_dec, finish_eq_ok]

theorem infoIs_iff (frame : List Byte) (lenid : Nat) (info : List Byte) :
    infoIs frame lenid info = true ↔
      (lenid = 0 ∧ info = []) ∨
      (0 < lenid ∧ infoFits frame lenid = true ∧ lenid % 2 = 0 ∧ bytesAt frame 13 (lenid / 2) = some info) := by
  unfold infoIs
  split
  · next h0 => simp [h0]
  · next h0 => simp [h0, Nat.pos_of_ne_zero h0, and_assoc]

/-- Step 9 delivers the Info that `infoIs` names. -/
theorem decodeInfo_of_infoIs {frame info : List Byte} {lenid : Nat} (hlt : lenid < 4096)
    (h : infoIs frame lenid info = true) :
    decodeInfo (regionOf frame) (BitVec.ofNat 12 lenid) = .ok info := by
  rw [decodeInfo_nat frame lenid hlt]
  obtain ⟨rfl, rfl⟩ | ⟨hpos, hfits, heven, hbytes⟩ := (infoIs_iff frame lenid info).mp h
  · rw [if_pos rfl]
  · simp [hpos.ne', hfits, heven, hbytes]

theorem decodeFrame_of_decodesTo {frame : List Byte} {p : Pdu} {lenid : Nat} (h : decodesTo frame p lenid = true) :
    decodeFrame frame = .ok p := by
  obtain ⟨hreach, hheader, hinfo⟩ := (decodesTo_iff frame p lenid).mp h
  obtain ⟨-, hlt, -⟩ := (reachesInfo_iff frame lenid).mp hreach
  rw [decodeFrame_of_info frame _ _ _ _ lenid hreach hheader, decodeInfo_of_infoIs hlt hinfo]
  simp

/-- 42 R122, both directions: LENID of a decoded frame is twice the length of Info. -/
theorem decodeFrame_eq_ok_iff (frame : List Byte) (p : Pdu) :
    decodeFrame frame = .ok p ↔ decodesTo frame p (2 * p.info.length) = true := by
  refine ⟨fun h => ?_, decodeFrame_of_decodesTo⟩
  obtain ⟨lenid, hd⟩ := decodesTo_of_decodeFrame_ok h
  obtain ⟨-, -, hinfo⟩ := (decodesTo_iff frame p lenid).mp hd
  rwa [infoIs_length hinfo] at hd

/-- Step 7: DEC ends with the response error of its Cid2. -/
theorem decodeFrame_of_rtnErr {frame : List Byte} {v a c d : Nat} {k : ErrKind} (hreach : reachesHeader frame = true)
    (hheader : headerOf frame = some (v, a, c, d)) (hk : rtnErr d = some k) : decodeFrame frame = .error k := by
  obtain ⟨-, -, hlen⟩ := (reachesHeader_iff frame).mp hreach
  rw [decodeFrame_of_reachesHeader frame hreach, decodeRegion_eq frame hlen]
  simp only [hheader, hk]

/-- Step 4: between good delimiters, another CHKSUM ends DEC, whatever the region holds. -/
theorem decodeFrame_of_chksum_bad {frame : List Byte} (hdelim : delimited frame = true)
    (hchk : chksumGood frame = false) : decodeFrame frame = .error .checksumMismatch := by
  have hlen : ¬ frame.length < 9 := Nat.not_lt.mpr (delimited_length frame hdelim)
  simp [decodeFrame_eq, hlen, hdelim, hchk]

/-- Settles O36: the ten steps of Safety are those of `decodeFrame`. -/
theorem decDeliversThePdu : Obligations.DecDeliversThePdu :=
  fun frame p _ s h => (exec_dec_eq_ok_iff frame p s).mpr (decodeFrame_of_decodesTo h)

/-- Settles O37: a delivered PDU comes from `decodesTo`, where LENID, of 12 bits, counts two characters a byte. -/
theorem decSucceedsOnlyOnTheTenSteps : Obligations.DecSucceedsOnlyOnTheTenSteps := by
  intro frame p s hexec
  have hd : decodesTo frame p (2 * p.info.length) = true :=
    (decodeFrame_eq_ok_iff frame p).mp ((exec_dec_eq_ok_iff frame p s).mp hexec)
  exact ⟨hd, decodesTo_info_length hd⟩

/-! ### DEC of what ENC produced -/

/-- The header characters stand at fixed indices, so each read computes to a pair BS2H wrote, whatever Info holds. -/
theorem headerOf_frameOf_bodyOf (p : Pdu) :
    headerOf (frameOf (bodyOf p)) = some (p.ver.toNat, p.addr.toNat, p.cid1.toNat, p.cid2.toNat) := by
  have hver : pairAt (frameOf (bodyOf p)) 1 = some p.ver.toNat := pairAt_twoChars _ p.ver.isLt []
  have haddr : pairAt (frameOf (bodyOf p)) 3 = some p.addr.toNat := pairAt_twoChars _ p.addr.isLt []
  have hcid1 : pairAt (frameOf (bodyOf p)) 5 = some p.cid1.toNat := pairAt_twoChars _ p.cid1.isLt []
  have hcid2 : pairAt (frameOf (bodyOf p)) 7 = some p.cid2.toNat := pairAt_twoChars _ p.cid2.isLt []
  simp only [headerOf, hver, haddr, hcid1, hcid2]

theorem fourAt_frameOf_bodyOf {p : Pdu} (h : p.info.length ≤ 0x7FF) :
    fourAt (frameOf (bodyOf p)) 9 = some (lengthNat (2 * p.info.length)) :=
  fourAt_fourChars (lengthNat_lt (by omega))

/-- Info starts at frame index 13, after SOI and the 12 header characters (30 R50). -/
theorem frameOf_bodyOf_eq_append (p : Pdu) :
    frameOf (bodyOf p) = (0x7E :: (bodyOf p).take 12) ++
      (hexText p.info ++ ((fourChars (fchkNat (bodyOf p))).toList ++ [0x0D])) := by
  simp [frameOf, bodyOf, twoChars, Text4.toList]

theorem bytesAt_frameOf_bodyOf (p : Pdu) : bytesAt (frameOf (bodyOf p)) 13 p.info.length = some p.info := by
  rw [frameOf_bodyOf_eq_append]
  exact (bytesAt_append (0x7E :: (bodyOf p).take 12) _ 0 _).trans (bytesAt_hexText p.info _)

theorem infoFits_frameOf (region : List Byte) (lenid : Nat) :
    infoFits (frameOf region) lenid = true ↔ 12 + lenid ≤ region.length := by
  simp [infoFits, frameOf_length]

theorem infoIs_frameOf_bodyOf (p : Pdu) : infoIs (frameOf (bodyOf p)) (2 * p.info.length) p.info = true := by
  have hfits : infoFits (frameOf (bodyOf p)) (2 * p.info.length) = true := by
    rw [infoFits_frameOf, bodyOf_length]
  obtain hempty | hpos := Nat.eq_zero_or_pos p.info.length
  · exact (infoIs_iff _ _ _).mpr (.inl ⟨by omega, List.length_eq_zero_iff.mp hempty⟩)
  · exact (infoIs_iff _ _ _).mpr (.inr ⟨by omega, hfits, by omega, by simp [bytesAt_frameOf_bodyOf]⟩)

theorem reachesHeader_frameOf_bodyOf (p : Pdu) : reachesHeader (frameOf (bodyOf p)) = true :=
  reachesHeader_frameOf (by rw [bodyOf_length]; omega)

/-- 42 R129: the frame of a PDU passes the ten steps where its Cid2 classifies as success. -/
theorem decodesTo_frameOf_bodyOf {p : Pdu} (hfits : p.info.length ≤ 0x7FF) (hcid2 : rtnErr p.cid2.toNat = none) :
    decodesTo (frameOf (bodyOf p)) p (2 * p.info.length) = true := by
  have hlength : reachesLength (frameOf (bodyOf p)) = true :=
    (reachesLength_iff _).mpr ⟨reachesHeader_frameOf_bodyOf p, _, _, _, _, headerOf_frameOf_bodyOf p, hcid2⟩
  have hreach : reachesInfo (frameOf (bodyOf p)) (2 * p.info.length) = true :=
    (reachesInfo_iff _ _).mpr ⟨hlength, by omega, fourAt_frameOf_bodyOf hfits⟩
  exact (decodesTo_iff _ _ _).mpr ⟨hreach, headerOf_frameOf_bodyOf p, infoIs_frameOf_bodyOf p⟩

/-- Settles O39: the frame of a PDU holds its header, a LENGTH that verifies and the text of its Info; DEC goes by the Cid2 it
reads back. -/
theorem frameRoundTrip : Obligations.FrameRoundTrip := by
  intro p s hfits
  refine ⟨frameOf (bodyOf p), (encDeliversTheFrame p s).1 hfits, fun hsuccess s' => ?_, fun k herror s' => ?_⟩
  · exact (exec_dec_eq_ok_iff _ p s').mpr (decodeFrame_of_decodesTo (decodesTo_frameOf_bodyOf hfits hsuccess))
  · rw [exec_dec, decodeFrame_of_rtnErr (reachesHeader_frameOf_bodyOf p) (headerOf_frameOf_bodyOf p) herror, finish_error]

/-! ### Characters after a decodable region -/

theorem pairAt_append_left {s : List Byte} {i : Nat} (h : i + 1 < s.length) (t : List Byte) :
    pairAt (s ++ t) i = pairAt s i := by
  simp only [pairAt, List.getElem?_append_left h, List.getElem?_append_left (Nat.lt_of_succ_lt h)]

theorem bytesAt_append_left {s : List Byte} {i k : Nat} (h : i + 2 * k ≤ s.length) (t : List Byte) :
    bytesAt (s ++ t) i k = bytesAt s i k := by
  induction k generalizing i with
  | zero => rfl
  | succ n ih => simp only [bytesAt, pairAt_append_left (s := s) (i := i) (by omega), ih (i := i + 2) (by omega)]

theorem frameOf_eq_append (region : List Byte) :
    frameOf region = (0x7E :: region) ++ ((fourChars (fchkNat region)).toList ++ [0x0D]) := by
  simp [frameOf]

theorem frameOf_append_eq (region extra : List Byte) :
    frameOf (region ++ extra) =
      (0x7E :: region) ++ (extra ++ (fourChars (fchkNat (region ++ extra))).toList ++ [0x0D]) := by
  simp [frameOf]

/-- A pair inside a framed region stays when characters are added after the region. -/
theorem pairAt_frameOf_append {region : List Byte} {i : Nat} (h : i < region.length) (extra : List Byte) :
    pairAt (frameOf (region ++ extra)) i = pairAt (frameOf region) i := by
  have hi : i + 1 < (0x7E :: region : List Byte).length := by simpa using h
  rw [frameOf_append_eq, frameOf_eq_append, pairAt_append_left hi, pairAt_append_left hi]

theorem bytesAt_frameOf_append {region : List Byte} {i k : Nat} (h : i + 2 * k ≤ region.length + 1)
    (extra : List Byte) : bytesAt (frameOf (region ++ extra)) i k = bytesAt (frameOf region) i k := by
  have hi : i + 2 * k ≤ (0x7E :: region : List Byte).length := by simpa using h
  rw [frameOf_append_eq, frameOf_eq_append, bytesAt_append_left hi, bytesAt_append_left hi]

theorem headerOf_frameOf_append {region : List Byte} (h : 12 ≤ region.length) (extra : List Byte) :
    headerOf (frameOf (region ++ extra)) = headerOf (frameOf region) := by
  have hpair : ∀ i, i < 12 → pairAt (frameOf (region ++ extra)) i = pairAt (frameOf region) i :=
    fun i hi => pairAt_frameOf_append (by omega) extra
  simp only [headerOf, hpair 1 (by omega), hpair 3 (by omega), hpair 5 (by omega), hpair 7 (by omega)]

theorem fourAt_frameOf_append {region : List Byte} (h : 12 ≤ region.length) (extra : List Byte) :
    fourAt (frameOf (region ++ extra)) 9 = fourAt (frameOf region) 9 := by
  simp only [fourAt, pairAt_frameOf_append (show 9 < region.length by omega),
    pairAt_frameOf_append (show 9 + 2 < region.length by omega)]

theorem infoIs_frameOf_append {region info : List Byte} {lenid : Nat} (extra : List Byte)
    (h : infoIs (frameOf region) lenid info = true) : infoIs (frameOf (region ++ extra)) lenid info = true := by
  obtain hempty | ⟨hpos, hfits, heven, hbytes⟩ := (infoIs_iff _ _ _).mp h
  · exact (infoIs_iff _ _ _).mpr (.inl hempty)
  · rw [infoFits_frameOf] at hfits
    have hfits' : infoFits (frameOf (region ++ extra)) lenid = true := by
      rw [infoFits_frameOf, List.length_append]
      omega
    have hbytes' : bytesAt (frameOf (region ++ extra)) 13 (lenid / 2) = some info := by
      rwa [bytesAt_frameOf_append (by omega)]
    exact (infoIs_iff _ _ _).mpr (.inr ⟨hpos, hfits', heven, hbytes'⟩)

/-- 42 R127: every step reads inside the header and the first LENID characters, or recomputes CHKSUM. -/
theorem decodesTo_frameOf_append {region : List Byte} {p : Pdu} {lenid : Nat} (extra : List Byte)
    (h : decodesTo (frameOf region) p lenid = true) : decodesTo (frameOf (region ++ extra)) p lenid = true := by
  obtain ⟨hreach, hheader, hinfo⟩ := (decodesTo_iff _ _ _).mp h
  obtain ⟨hlength, hlt, hfour⟩ := (reachesInfo_iff _ _).mp hreach
  obtain ⟨hr, hclass⟩ := (reachesLength_iff _).mp hlength
  have hlen : 12 ≤ region.length := by
    obtain ⟨-, -, h18⟩ := (reachesHeader_iff _).mp hr
    rw [frameOf_length] at h18
    omega
  rw [← headerOf_frameOf_append hlen extra] at hheader hclass
  rw [← fourAt_frameOf_append hlen extra] at hfour
  have hr' : reachesHeader (frameOf (region ++ extra)) = true :=
    reachesHeader_frameOf (by rw [List.length_append]; omega)
  exact (decodesTo_iff _ _ _).mpr ⟨(reachesInfo_iff _ _).mpr ⟨(reachesLength_iff _).mpr ⟨hr', hclass⟩, hlt, hfour⟩,
    hheader, infoIs_frameOf_append extra hinfo⟩

/-- Settles O38: the ten steps pass with the same fields when characters are added after the region. -/
theorem decIgnoresTrailingCharacters : Obligations.DecIgnoresTrailingCharacters := by
  intro region extra p s hexec
  have hd := (decodeFrame_eq_ok_iff _ p).mp ((exec_dec_eq_ok_iff _ p s).mp hexec)
  exact (exec_dec_eq_ok_iff _ p s).mpr (decodeFrame_of_decodesTo (decodesTo_frameOf_append extra hd))

/-! ### A changed character of the body -/

theorem fourChars_inj {v w : Nat} (hv : v < 65536) (hw : w < 65536)
    (h : (fourChars v).toList = (fourChars w).toList) : v = w := by
  have hread := fourAt_fourChars hv
  rw [h, fourAt_fourChars hw] at hread
  exact (Option.some.inj hread).symm

/-- Replacing one byte moves the byte sum by the difference of the two. -/
theorem byteSum_set {text : List Byte} {i : Nat} {b : Byte} (h : text[i]? = some b) (c : Byte) :
    byteSum (text.set i c) + b.toNat = byteSum text + c.toNat := by
  induction text generalizing i with
  | nil => simp at h
  | cons a rest ih =>
    cases i with
    | zero =>
      obtain rfl : a = b := by simpa using h
      simp only [byteSum, List.set_cons_zero, List.map_cons, List.sum_cons]
      omega
    | succ j =>
      have hrest := ih (i := j) (by simpa using h)
      simp only [byteSum, List.set_cons_succ, List.map_cons, List.sum_cons] at hrest ⊢
      omega

/-- 42 R130: one byte is less than the modulus, so replacing it by another one changes the checksum. -/
theorem fchkNat_set_ne {text : List Byte} {i : Nat} {b c : Byte} (h : text[i]? = some b) (hne : b ≠ c) :
    fchkNat (text.set i c) ≠ fchkNat text := by
  have hsum := byteSum_set h c
  have hb := b.isLt
  have hc := c.isLt
  have hval : b.toNat ≠ c.toNat := fun heq => hne (BitVec.eq_of_toNat_eq heq)
  unfold fchkNat
  omega

theorem regionOf_set (frame : List Byte) (i : Nat) (c : Byte) :
    regionOf (frame.set (i + 1) c) = (regionOf frame).set i c := by
  have hdrop : (frame.set (i + 1) c).drop 1 = (frame.drop 1).set i c := by simp [List.drop_set]
  rw [regionOf, regionOf, List.length_set, hdrop, List.take_set]

/-- The delimiters stand outside the body. -/
theorem delimited_set {frame : List Byte} {j : Nat} (c : Byte) (hfirst : 1 ≤ j) (hlast : j < frame.length - 5)
    (h : delimited frame = true) : delimited (frame.set j c) = true := by
  obtain ⟨hlen, hsoi, heoi⟩ := (delimited_iff frame).mp h
  refine (delimited_iff _).mpr ⟨?_, ?_, ?_⟩
  · rwa [List.length_set]
  · rwa [List.getElem?_set_ne (by omega)]
  · rwa [List.length_set, List.getElem?_set_ne (by omega)]

/-- The CHKSUM characters stand outside the body, and they are no longer those of the region. -/
theorem chksumGood_set {frame : List Byte} {i : Nat} {c : Byte} (hlast : i + 1 < frame.length - 5)
    (hne : frame[i + 1]? ≠ some c) (h : chksumGood frame = true) : chksumGood (frame.set (i + 1) c) = false := by
  have hget : (regionOf frame)[i]? = some (charAt frame (i + 1)) := by
    rw [regionOf, window_get _ _ _ _ (by omega), Nat.add_comm 1 i, charAt_eq _ _ (by omega)]
  have hb : charAt frame (i + 1) ≠ c := by simpa [charAt_eq frame (i + 1) (by omega)] using hne
  have hkept : (frame.set (i + 1) c).drop (frame.length - 5) = frame.drop (frame.length - 5) :=
    List.drop_set_of_lt hlast
  simp only [chksumGood, beq_iff_eq] at h
  rw [chksumGood, List.length_set, hkept, h, regionOf_set, beq_eq_false_iff_ne]
  exact fun heq => fchkNat_set_ne hget hb (fourChars_inj (fchkNat_lt _) (fchkNat_lt _) heq).symm

/-- Settles O41: the frame stays delimited, and the checksum of the changed region is not the one it carries. -/
theorem bodyMutationIsDetected : Obligations.BodyMutationIsDetected := by
  intro frame p s j c hexec hfirst hlast hne
  have hd := (decodeFrame_eq_ok_iff _ p).mp ((exec_dec_eq_ok_iff _ p s).mp hexec)
  obtain ⟨hreach, -, -⟩ := (decodesTo_iff _ _ _).mp hd
  obtain ⟨hlength, -, -⟩ := (reachesInfo_iff _ _).mp hreach
  obtain ⟨hheader, -⟩ := (reachesLength_iff _).mp hlength
  obtain ⟨hdelim, hchk, -⟩ := (reachesHeader_iff _).mp hheader
  obtain ⟨i, rfl⟩ := Nat.exists_eq_add_of_le' hfirst
  rw [exec_dec, decodeFrame_of_chksum_bad (delimited_set c hfirst hlast hdelim) (chksumGood_set hlast hne hchk),
    finish_error]

end Sys2Proof.Machine
end

section
/-! SUPPORT. The error kinds each algorithm ends with and exactly when, DEC's kind by kind (60 R152 to R168), which operation can
deliver a kind at all, and with these the statements of 60_exceptions.md. -/

namespace Sys2Proof.Machine

open Sys2Proof.Safety

/-! ### How an operation ends -/

@[simp] theorem endWith_eq_error_iff {α : Type} (mk : α → Result) (x : Except ErrKind α) (k : ErrKind) :
    endWith mk x = .error k ↔ x = .error k := by
  cases x <;> simp [endWith]

@[simp] theorem endWith_eq_ok_iff {α : Type} (mk : α → Result) (x : Except ErrKind α) (v : Result) :
    endWith mk x = .ok v ↔ ∃ a, x = .ok a ∧ mk a = v := by
  cases x <;> simp [endWith]

/-- The six operations that can end with an error kind do so where their algorithm does; the other five never do. -/
theorem exec_eq_error_iff (i : Instr) (s : State) (k : ErrKind) :
    exec i s = .next (after s (.error k)) ↔
      (∃ hi lo, i = .h2b hi lo ∧ hexPairToByte hi lo = .error k) ∨
      (∃ t, i = .hs2b t ∧ hexToBytes t = .error k) ∨
      (∃ t, i = .lunpk t ∧ unpackLength t = .error k) ∨
      (∃ code, i = .rtncls code ∧ classifyResponseCode code = .error k) ∨
      (∃ p, i = .enc p ∧ encodeFrame p = .error k) ∨
      (∃ frame, i = .dec frame ∧ decodeFrame frame = .error k) := by
  rw [exec_next, Host.Outcome.next.injEq, after_inj]
  cases i with
  | b2h | bs2h | fchk | lchk | lpack => simp [responseOf]
  | h2b | hs2b | lunpk | rtncls | enc | dec => simp [responseOf]

/-! ### The shapes of results -/

/-- 40 R85: a decoded text has two characters a byte. -/
theorem hexToBytes_ok_length {t bytes : List Byte} (h : hexToBytes t = .ok bytes) : t.length = 2 * bytes.length := by
  rw [hexToBytes_eq] at h
  split at h
  · cases h
  · split at h
    · next hodd _ bs hbs =>
      obtain rfl : bs = bytes := by simpa using h
      have := bytesAt_length hbs
      omega
    · cases h

theorem resultFits_of_responseOf {i : Instr} {v : Result} (h : responseOf i = .ok v) : resultFits i v = true := by
  cases i with
  | bs2h bytes =>
    obtain rfl : .bs2h (bytesToHex bytes) = v := by simpa [responseOf] using h
    simp [resultFits, bytesToHex_eq_hexText, hexText_length]
  | hs2b t =>
    obtain ⟨bytes, hread, rfl⟩ := (endWith_eq_ok_iff _ _ _).mp h
    simpa [resultFits] using hexToBytes_ok_length hread
  | enc p =>
    obtain ⟨frame, henc, rfl⟩ := (endWith_eq_ok_iff _ _ _).mp h
    simpa [resultFits] using encodeFrame_ok_length henc
  | b2h | fchk | lchk | lpack =>
    cases h
    rfl
  | h2b | lunpk | rtncls | dec =>
    obtain ⟨_, -, rfl⟩ := (endWith_eq_ok_iff _ _ _).mp h
    rfl

/-- Settles O8: the one response is `responseOf`, whose results are of their operation's row. -/
theorem everyOperationDeliversOneResponse : Obligations.EveryOperationDeliversOneResponse :=
  fun i s => ⟨responseOf i, exec_next i s, fun _ => resultFits_of_responseOf⟩

/-! ### The errors of the algorithms below DEC -/

@[simp] theorem hexPairToByte_eq_error_iff (hi lo : Byte) (k : ErrKind) :
    hexPairToByte hi lo = .error k ↔ k = .invalidHexCharacter ∧ (digitOf hi = none ∨ digitOf lo = none) := by
  rw [hexPairToByte_eq]
  cases digitOf hi <;> cases digitOf lo <;> simp [eq_comm]

@[simp] theorem hexToBytes_eq_error_iff (t : List Byte) (k : ErrKind) :
    hexToBytes t = .error k ↔
      (k = .oddLengthHex ∧ t.length % 2 = 1) ∨
      (k = .invalidHexCharacter ∧ t.length % 2 = 0 ∧ bytesAt t 0 (t.length / 2) = none) := by
  obtain heven | hodd := Nat.mod_two_eq_zero_or_one t.length
  · cases hb : bytesAt t 0 (t.length / 2) with
    | none => simp [hexToBytes_of_bad heven hb, heven, eq_comm]
    | some bytes => simp [hexToBytes_of_bytesAt heven hb, heven]
  · simp [hexToBytes_of_odd hodd, hodd, eq_comm]

@[simp] theorem unpackLength_eq_error_iff (t : Text4) (k : ErrKind) :
    unpackLength t = .error k ↔
      (k = .invalidHexCharacter ∧ fourAt t.toList 0 = none) ∨
      (k = .lChecksumMismatch ∧ ∃ v, fourAt t.toList 0 = some v ∧ v / 4096 ≠ lchkNat (v % 4096)) := by
  cases hv : fourAt t.toList 0 with
  | none => simp [unpackLength_of_bad hv, eq_comm]
  | some v =>
    rw [unpackLength_of_value hv]
    split
    · next hgood => simp [hgood]
    · next hdiffer => simp [hdiffer, eq_comm]

/-- RTNTAB maps to the eight response errors only. -/
theorem isResponseError_of_rtnErr {code : Nat} {k : ErrKind} (h : rtnErr code = some k) : isResponseError k = true := by
  unfold rtnErr at h
  split_ifs at h <;> cases h <;> rfl

/-- That the kind is a response error follows from the code; it is said here so that another kind refutes the right side. -/
@[simp] theorem classifyResponseCode_eq_error_iff (code : Byte) (k : ErrKind) :
    classifyResponseCode code = .error k ↔ isResponseError k = true ∧ rtnErr code.toNat = some k := by
  rw [and_iff_right_of_imp isResponseError_of_rtnErr, classifyResponseCode_eq]
  cases rtnErr code.toNat <;> simp

@[simp] theorem encodeFrame_eq_error_iff (p : Pdu) (k : ErrKind) :
    encodeFrame p = .error k ↔ k = .infoTooLarge ∧ 0x7FF < p.info.length := by
  rw [encodeFrame_eq]
  split
  · next hlarge => simp [hlarge, eq_comm]
  · next hfits => simp [hfits]

/-! ### The stages at which DEC ends -/

theorem decodeFrame_of_short {frame : List Byte} (h : frame.length < 9) :
    decodeFrame frame = .error .frameTooShort := by
  rw [decodeFrame_eq, if_pos h]

theorem decodeFrame_of_undelimited {frame : List Byte} (hlen : 9 ≤ frame.length) (h : delimited frame = false) :
    decodeFrame frame = .error .invalidDelimiters := by
  rw [decodeFrame_eq, if_neg (Nat.not_lt.mpr hlen), if_pos h]

theorem decodeFrame_of_short_region {frame : List Byte} (hdelim : delimited frame = true)
    (hchk : chksumGood frame = true) (h : frame.length < 18) : decodeFrame frame = .error .malformedFrame := by
  have hlen : ¬ frame.length < 9 := Nat.not_lt.mpr (delimited_length frame hdelim)
  simp [decodeFrame_eq, hlen, hdelim, hchk, h]

/-- Step 6: a bad character in one of the four header pairs. -/
theorem decodeFrame_of_header_bad {frame : List Byte} (hreach : reachesHeader frame = true)
    (h : headerOf frame = none) : decodeFrame frame = .error .invalidHexCharacter := by
  obtain ⟨-, -, hlen⟩ := (reachesHeader_iff frame).mp hreach
  rw [decodeFrame_of_reachesHeader frame hreach, decodeRegion_eq frame hlen, h]

/-- Step 8: DEC ends as the LENGTH field does, with whatever header it read before. -/
theorem decodeFrame_of_reachesLength {frame : List Byte} (hreach : reachesLength frame = true) :
    ∃ ver addr cid1 cid2, decodeFrame frame = decodeBody (regionOf frame) ver addr cid1 cid2 ∧ 18 ≤ frame.length := by
  obtain ⟨hr, v, a, c, d, hheader, hd⟩ := (reachesLength_iff frame).mp hreach
  obtain ⟨-, -, hlen⟩ := (reachesHeader_iff frame).mp hr
  exact ⟨_, _, _, _, decodeFrame_of_header frame v a c d hr hheader hd, hlen⟩

theorem decodeFrame_of_length_bad {frame : List Byte} (hreach : reachesLength frame = true)
    (h : fourAt frame 9 = none) : decodeFrame frame = .error .invalidHexCharacter := by
  obtain ⟨_, _, _, _, hdec, hlen⟩ := decodeFrame_of_reachesLength hreach
  rw [hdec, decodeBody_eq frame hlen, h]

theorem decodeFrame_of_length_differs {frame : List Byte} {w : Nat} (hreach : reachesLength frame = true)
    (hw : fourAt frame 9 = some w) (h : w ≠ lengthNat (w % 4096)) : decodeFrame frame = .error .lChecksumMismatch := by
  obtain ⟨_, _, _, _, hdec, hlen⟩ := decodeFrame_of_reachesLength hreach
  rw [hdec, decodeBody_eq frame hlen, hw]
  exact if_neg h

/-- Step 9: DEC ends with the error of the read of Info. -/
theorem decodeFrame_of_info_error {frame : List Byte} {lenid : Nat} {k : ErrKind}
    (hreach : reachesInfo frame lenid = true) (h : decodeInfo (regionOf frame) (BitVec.ofNat 12 lenid) = .error k) :
    decodeFrame frame = .error k := by
  obtain ⟨hlength, -, -⟩ := (reachesInfo_iff frame lenid).mp hreach
  obtain ⟨-, v, a, c, d, hheader, -⟩ := (reachesLength_iff frame).mp hlength
  rw [decodeFrame_of_info frame v a c d lenid hreach hheader, h]

theorem decodeFrame_of_info_missing {frame : List Byte} {lenid : Nat} (hreach : reachesInfo frame lenid = true)
    (hpos : 0 < lenid) (h : infoFits frame lenid = false) : decodeFrame frame = .error .frameLengthMismatch := by
  obtain ⟨-, hlt, -⟩ := (reachesInfo_iff frame lenid).mp hreach
  exact decodeFrame_of_info_error hreach (by rw [decodeInfo_nat frame lenid hlt, if_neg hpos.ne', if_pos h])

theorem decodeFrame_of_info_odd {frame : List Byte} {lenid : Nat} (hreach : reachesInfo frame lenid = true)
    (hfits : infoFits frame lenid = true) (h : lenid % 2 = 1) : decodeFrame frame = .error .oddLengthHex := by
  obtain ⟨-, hlt, -⟩ := (reachesInfo_iff frame lenid).mp hreach
  have hne : lenid ≠ 0 := by omega
  exact decodeFrame_of_info_error hreach (by simp [decodeInfo_nat frame lenid hlt, hne, hfits, h])

theorem decodeFrame_of_info_bad {frame : List Byte} {lenid : Nat} (hreach : reachesInfo frame lenid = true)
    (hpos : 0 < lenid) (hfits : infoFits frame lenid = true) (heven : lenid % 2 = 0)
    (h : bytesAt frame 13 (lenid / 2) = none) : decodeFrame frame = .error .invalidHexCharacter := by
  obtain ⟨-, hlt, -⟩ := (reachesInfo_iff frame lenid).mp hreach
  exact decodeFrame_of_info_error hreach (by simp [decodeInfo_nat frame lenid hlt, hpos.ne', hfits, heven, h])

/-! ### The errors of DEC -/

/-- When DEC ends with an error kind, kind by kind (60 R152 to R168): at which step, and what is wrong there. The last row is
that of the eight response errors. -/
def DecFails (frame : List Byte) (k : ErrKind) : Prop :=
  match k with
  | .frameTooShort => frame.length < 9
  | .invalidDelimiters => 9 ≤ frame.length ∧ delimited frame = false
  | .checksumMismatch => delimited frame = true ∧ chksumGood frame = false
  | .malformedFrame => delimited frame = true ∧ chksumGood frame = true ∧ frame.length < 18
  | .invalidHexCharacter =>
    (reachesHeader frame = true ∧ headerOf frame = none) ∨
    (reachesLength frame = true ∧ fourAt frame 9 = none) ∨
    (∃ lenid, reachesInfo frame lenid = true ∧ 0 < lenid ∧ infoFits frame lenid = true ∧ lenid % 2 = 0 ∧
      bytesAt frame 13 (lenid / 2) = none)
  | .lChecksumMismatch => ∃ w, reachesLength frame = true ∧ fourAt frame 9 = some w ∧ w ≠ lengthNat (w % 4096)
  | .frameLengthMismatch => ∃ lenid, reachesInfo frame lenid = true ∧ 0 < lenid ∧ infoFits frame lenid = false
  | .oddLengthHex => ∃ lenid, reachesInfo frame lenid = true ∧ lenid % 2 = 1 ∧ infoFits frame lenid = true
  | .infoTooLarge => False
  | response =>
    ∃ v a c d, reachesHeader frame = true ∧ headerOf frame = some (v, a, c, d) ∧ rtnErr d = some response

theorem decFails_iff_of_isResponseError {frame : List Byte} {k : ErrKind} (h : isResponseError k = true) :
    DecFails frame k ↔
      ∃ v a c d, reachesHeader frame = true ∧ headerOf frame = some (v, a, c, d) ∧ rtnErr d = some k := by
  cases k with
  | versionError | checksumError | lengthChecksumError | invalidCid2 | commandFormatError | dataInvalid | asciiError
  | otherError => rfl
  | invalidHexCharacter | oddLengthHex | frameTooShort | invalidDelimiters | checksumMismatch | malformedFrame
  | lChecksumMismatch | frameLengthMismatch | infoTooLarge => exact absurd h (by decide)

theorem decFails_of_decodeFrame {frame : List Byte} {k : ErrKind} (h : decodeFrame frame = .error k) :
    DecFails frame k := by
  have kind : ∀ {k' : ErrKind}, decodeFrame frame = .error k' → k' = k := fun h' => by simpa [h'] using h
  obtain ⟨hshort, h'⟩ | ⟨hlen, hdelim, h'⟩ | ⟨hdelim, hchk, h'⟩ | ⟨hdelim, hchk, hregion, h'⟩ | ⟨hr, hheader, h'⟩ |
    ⟨v, a, c, d, k', hr, hheader, hcode, h'⟩ | ⟨hl, hbad, h'⟩ | ⟨w, hl, hw, hdiffer, h'⟩ | ⟨n, hi, hpos, hmiss, h'⟩ |
    ⟨n, hi, hfits, hodd, h'⟩ | ⟨n, hi, hpos, hfits, heven, hbad, h'⟩ | ⟨p, n, -, h'⟩ := decodeFrame_cases frame
  · obtain rfl := kind h'
    exact hshort
  · obtain rfl := kind h'
    exact ⟨hlen, hdelim⟩
  · obtain rfl := kind h'
    exact ⟨hdelim, hchk⟩
  · obtain rfl := kind h'
    exact ⟨hdelim, hchk, hregion⟩
  · obtain rfl := kind h'
    exact .inl ⟨hr, hheader⟩
  · obtain rfl := kind h'
    exact (decFails_iff_of_isResponseError (isResponseError_of_rtnErr hcode)).mpr ⟨v, a, c, d, hr, hheader, hcode⟩
  · obtain rfl := kind h'
    exact .inr (.inl ⟨hl, hbad⟩)
  · obtain rfl := kind h'
    exact ⟨w, hl, hw, hdiffer⟩
  · obtain rfl := kind h'
    exact ⟨n, hi, hpos, hmiss⟩
  · obtain rfl := kind h'
    exact ⟨n, hi, hodd, hfits⟩
  · obtain rfl := kind h'
    exact .inr (.inr ⟨n, hi, hpos, hfits, heven, hbad⟩)
  · simp [h'] at h

theorem decodeFrame_of_decFails {frame : List Byte} {k : ErrKind} (h : DecFails frame k) :
    decodeFrame frame = .error k := by
  cases k with
  | frameTooShort => exact decodeFrame_of_short h
  | invalidDelimiters =>
    obtain ⟨hlen, hdelim⟩ := h
    exact decodeFrame_of_undelimited hlen hdelim
  | checksumMismatch =>
    obtain ⟨hdelim, hchk⟩ := h
    exact decodeFrame_of_chksum_bad hdelim hchk
  | malformedFrame =>
    obtain ⟨hdelim, hchk, hregion⟩ := h
    exact decodeFrame_of_short_region hdelim hchk hregion
  | invalidHexCharacter =>
    obtain ⟨hr, hheader⟩ | ⟨hl, hbad⟩ | ⟨n, hi, hpos, hfits, heven, hbad⟩ := h
    · exact decodeFrame_of_header_bad hr hheader
    · exact decodeFrame_of_length_bad hl hbad
    · exact decodeFrame_of_info_bad hi hpos hfits heven hbad
  | lChecksumMismatch =>
    obtain ⟨w, hl, hw, hdiffer⟩ := h
    exact decodeFrame_of_length_differs hl hw hdiffer
  | frameLengthMismatch =>
    obtain ⟨n, hi, hpos, hmiss⟩ := h
    exact decodeFrame_of_info_missing hi hpos hmiss
  | oddLengthHex =>
    obtain ⟨n, hi, hodd, hfits⟩ := h
    exact decodeFrame_of_info_odd hi hfits hodd
  | infoTooLarge => exact h.elim
  | versionError | checksumError | lengthChecksumError | invalidCid2 | commandFormatError | dataInvalid | asciiError
  | otherError =>
    obtain ⟨v, a, c, d, hr, hheader, hcode⟩ := h
    exact decodeFrame_of_rtnErr hr hheader hcode

/-- 60 R152 to R168 for DEC: `DecFails` is exact. -/
@[simp] theorem decodeFrame_eq_error_iff (frame : List Byte) (k : ErrKind) :
    decodeFrame frame = .error k ↔ DecFails frame k :=
  ⟨decFails_of_decodeFrame, decodeFrame_of_decFails⟩

/-! ### The raise matrix -/

/-- DEC's row holds every kind but InfoTooLarge. -/
theorem mem_mayRaise_dec {frame : List Byte} {k : ErrKind} (h : k ≠ .infoTooLarge) : k ∈ mayRaise (.dec frame) := by
  cases k <;> simp [mayRaise] at h ⊢

/-- Settles O10: each algorithm's errors, found above, are listed in its operation's row. -/
theorem errorsStayInTheRaiseMatrix : Obligations.ErrorsStayInTheRaiseMatrix := by
  intro i s k h
  obtain ⟨hi, lo, rfl, herr⟩ | ⟨t, rfl, herr⟩ | ⟨t, rfl, herr⟩ | ⟨code, rfl, herr⟩ | ⟨p, rfl, herr⟩ |
    ⟨frame, rfl, herr⟩ := (exec_eq_error_iff i s k).mp h
  · obtain ⟨rfl, -⟩ := (hexPairToByte_eq_error_iff hi lo k).mp herr
    simp [mayRaise]
  · obtain ⟨rfl, -⟩ | ⟨rfl, -⟩ := (hexToBytes_eq_error_iff t k).mp herr <;> simp [mayRaise]
  · obtain ⟨rfl, -⟩ | ⟨rfl, -⟩ := (unpackLength_eq_error_iff t k).mp herr <;> simp [mayRaise]
  · obtain ⟨hk, -⟩ := (classifyResponseCode_eq_error_iff code k).mp herr
    simpa [isResponseError, mayRaise] using hk
  · obtain ⟨rfl, -⟩ := (encodeFrame_eq_error_iff p k).mp herr
    simp [mayRaise]
  · have hfails : DecFails frame k := (decodeFrame_eq_error_iff frame k).mp herr
    refine mem_mayRaise_dec ?_
    rintro rfl
    exact hfails

/-! ### The kinds of the hex codec and the LENGTH field

At one kind, `exec_eq_error_iff` keeps the operations whose algorithm can end with it; the errors of the others are of other
kinds. -/

/-- Settles O43: `exec_eq_error_iff` at InvalidHexCharacter, DEC's three stages being its row of `DecFails`. -/
theorem invalidHexCharacterExactlyOnBadDigits : Obligations.InvalidHexCharacterExactlyOnBadDigits := by
  intro i s
  simp [exec_eq_error_iff, isResponseError, DecFails]

/-- Settles O44: of the six operations, only HS2B and step 9 of DEC test a parity. -/
theorem oddLengthHexExactlyOnOddTexts : Obligations.OddLengthHexExactlyOnOddTexts := by
  intro i s
  simp [exec_eq_error_iff, isResponseError, DecFails]

/-- A LENGTH value is that of its LENID exactly when it carries the LENID's checksum. -/
theorem eq_lengthNat_mod_iff (v : Nat) : v = lengthNat (v % 4096) ↔ v / 4096 = lchkNat (v % 4096) := by
  unfold lengthNat
  omega

/-- Settles O49: LUNPK and step 8 of DEC compare the carried checksum with the recomputed one. -/
theorem lChecksumMismatchExactlyOnOtherSum : Obligations.LChecksumMismatchExactlyOnOtherSum := by
  intro i s
  simp [exec_eq_error_iff, isResponseError, DecFails, eq_lengthNat_mod_iff]

/-! ### The kinds DEC alone delivers -/

/-- The kinds that stand in DEC's row of the raise matrix and in no other. -/
def decOnlyKinds : List ErrKind :=
  [.frameTooShort, .invalidDelimiters, .checksumMismatch, .malformedFrame, .frameLengthMismatch]

theorem exists_dec_of_mem_mayRaise {i : Instr} {k : ErrKind} (hk : k ∈ decOnlyKinds) (h : k ∈ mayRaise i) :
    ∃ frame, i = .dec frame := by
  cases i with
  | dec frame => exact ⟨frame, rfl⟩
  | b2h | bs2h | fchk | lchk | lpack | h2b | hs2b | lunpk | rtncls | enc => grind [decOnlyKinds, mayRaise]

/-- By the raise matrix, a kind of DEC alone is delivered exactly where DEC fails with it. -/
theorem exec_eq_error_iff_of_decOnly {k : ErrKind} (hk : k ∈ decOnlyKinds) (i : Instr) (s : State) :
    exec i s = .next (after s (.error k)) ↔ ∃ frame, i = .dec frame ∧ DecFails frame k := by
  have hdec : ∀ frame, exec (.dec frame) s = .next (after s (.error k)) ↔ DecFails frame k := fun frame => by
    rw [exec_dec, finish_eq_error, decodeFrame_eq_error_iff]
  constructor
  · intro h
    obtain ⟨frame, rfl⟩ := exists_dec_of_mem_mayRaise hk (errorsStayInTheRaiseMatrix i s k h)
    exact ⟨frame, rfl, (hdec frame).mp h⟩
  · rintro ⟨frame, rfl, hfails⟩
    exact (hdec frame).mpr hfails

/-- Settles O45: step 1 of DEC. -/
theorem frameTooShortExactlyBelowNineBytes : Obligations.FrameTooShortExactlyBelowNineBytes :=
  exec_eq_error_iff_of_decOnly (by decide)

theorem delimited_eq_false_iff {frame : List Byte} (h : 9 ≤ frame.length) :
    delimited frame = false ↔ frame[0]? ≠ some 0x7E ∨ frame[frame.length - 1]? ≠ some 0x0D := by
  rw [← Bool.not_eq_true, delimited_iff]
  tauto

/-- Settles O46: step 2 of DEC, where the length is known to be at least 9. -/
theorem invalidDelimitersExactlyOnBadEnds : Obligations.InvalidDelimitersExactlyOnBadEnds := by
  intro i s
  have hends : ∀ frame : List Byte, DecFails frame .invalidDelimiters ↔
      9 ≤ frame.length ∧ (frame[0]? ≠ some 0x7E ∨ frame[frame.length - 1]? ≠ some 0x0D) :=
    fun _ => and_congr_right delimited_eq_false_iff
  rw [exec_eq_error_iff_of_decOnly (by decide)]
  simp only [hends]

theorem regionOf_length_lt_iff (frame : List Byte) : (regionOf frame).length < 12 ↔ frame.length < 18 := by
  rw [regionOf_length]
  omega

/-- Settles O48: step 5 of DEC; the region is the frame without its six bytes of SOI, CHKSUM and EOI. -/
theorem malformedFrameExactlyOnShortRegions : Obligations.MalformedFrameExactlyOnShortRegions := by
  intro i s
  rw [exec_eq_error_iff_of_decOnly (by decide)]
  simp only [DecFails, regionOf_length_lt_iff]

theorem infoFits_eq_false_iff (frame : List Byte) (lenid : Nat) :
    infoFits frame lenid = false ↔ (regionOf frame).length < 12 + lenid := by
  rw [infoFits, decide_eq_false_iff_not, Nat.not_le, regionOf_length]

/-- Settles O50: step 9 of DEC, before the parity and the characters of Info. -/
theorem frameLengthMismatchExactlyOnMissingInfo : Obligations.FrameLengthMismatchExactlyOnMissingInfo := by
  intro i s
  rw [exec_eq_error_iff_of_decOnly (by decide)]
  simp only [DecFails, infoFits_eq_false_iff, exists_and_left]

/-! ### The kinds of ENC and of the response codes -/

/-- Settles O51: the size of Info is the one thing ENC tests, and no other operation has its kind. -/
theorem infoTooLargeExactlyOnLongInfo : Obligations.InfoTooLargeExactlyOnLongInfo := by
  constructor
  · intro i s
    simp [exec_eq_error_iff, isResponseError, DecFails]
  · intro p s k h
    simpa [mayRaise] using errorsStayInTheRaiseMatrix (.enc p) s k h

/-- Settles O52: a response error is none of the other kinds, so it comes from RTNCLS or from step 7 of DEC. -/
theorem responseErrorsExactlyOnTheirCodes : Obligations.ResponseErrorsExactlyOnTheirCodes := by
  intro i s k hk
  have hne : ∀ {k' : ErrKind}, isResponseError k' = false → k ≠ k' := by
    rintro k' hk' rfl
    simp [hk'] at hk
  have hhex : k ≠ .invalidHexCharacter := hne rfl
  have hodd : k ≠ .oddLengthHex := hne rfl
  have hsum : k ≠ .lChecksumMismatch := hne rfl
  have hlarge : k ≠ .infoTooLarge := hne rfl
  simp [exec_eq_error_iff, hk, hhex, hodd, hsum, hlarge, decFails_iff_of_isResponseError hk]

end Sys2Proof.Machine
end

section
/-! SUPPORT. The step for each of the host's moves and what a legal move gives, and with these the statements of
70_reset_and_hazards.md: a legal host is never refused, and a decoded PDU can be encoded again. -/

namespace Sys2Proof.Machine

open Sys2Proof.Safety

/-! ### The step for each of the host's moves -/

theorem stepWith_of_idle {s : State} (bound : InLenBound) (hp : s.pending = []) : stepWith bound s = .next s := by
  simp [stepWith, fetchWith, hp]

/-- 70 R190: a reset takes the move and leaves the rest of the state. -/
theorem stepWith_of_reset {s : State} {rest : List HostEvent} (bound : InLenBound) (hp : s.pending = .reset :: rest) :
    stepWith bound s = .next { pending := rest, delivered := s.delivered } := by
  simp [stepWith, fetchWith, hp, resetBlock]

/-- 70 R202: a request the host may present takes the move and delivers its operation's response. -/
theorem stepWith_of_issue {bound : InLenBound} {s : State} {r : Request} {rest : List HostEvent} {i : Instr}
    (hp : s.pending = .issue r :: rest) (hd : decode r = .ok i) (hw : i.wellFormed bound = true) :
    stepWith bound s = .next { pending := rest, delivered := s.delivered ++ [responseOf i] } := by
  rw [stepWith_of_wellFormed hp hd hw, exec_next, after]

/-! ### Legal moves -/

/-- A legal request has a legal `op` and spells an operation whose sequence is within the bound. -/
theorem legalEvent_issue_iff (bound : InLenBound) (r : Request) :
    legalEvent bound (.issue r) = true ↔
      r.op.toNat ≤ 10 ∧ ∃ i, decode r = .ok i ∧ i.wellFormed bound = true := by
  cases hd : decode r <;> simp [legalEvent, hd]

theorem pendingLegal_iff_of_cons {bound : InLenBound} {s : State} {e : HostEvent} {rest : List HostEvent}
    (hp : s.pending = e :: rest) :
    PendingLegal bound s ↔ legalEvent bound e = true ∧ ∀ e' ∈ rest, legalEvent bound e' = true := by
  rw [PendingLegal, hp, List.forall_mem_cons]

/-- Settles O13: the step answers a next state for each move that can stand first, and the moves left are legal as before. -/
theorem legalHostIsNeverRefused : Obligations.LegalHostIsNeverRefused := by
  intro bound s hlegal
  match hp : s.pending with
  | [] => exact ⟨s, stepWith_of_idle bound hp, hlegal⟩
  | .reset :: rest =>
    obtain ⟨-, hrest⟩ := (pendingLegal_iff_of_cons hp).mp hlegal
    exact ⟨_, stepWith_of_reset bound hp, hrest⟩
  | .issue r :: rest =>
    obtain ⟨hissue, hrest⟩ := (pendingLegal_iff_of_cons hp).mp hlegal
    obtain ⟨-, i, hd, hw⟩ := (legalEvent_issue_iff bound r).mp hissue
    exact ⟨_, stepWith_of_issue hp hd hw, hrest⟩

/-! ### A decoded PDU -/

/-- Settles O40: a decoded PDU has an Info ENC accepts and a Cid2 that classified as success, so the round trip of 42 R129
gives the canonical frame. -/
theorem decodedPduReencodes : Obligations.DecodedPduReencodes := by
  intro frame p s hexec
  obtain ⟨hdecodes, hfits⟩ := decSucceedsOnlyOnTheTenSteps frame p s hexec
  obtain ⟨canonical, henc, hdec, -⟩ := frameRoundTrip p s hfits
  exact ⟨canonical, henc, hdec (decodesTo_rtnErr hdecodes) s⟩

end Sys2Proof.Machine
end

section
/-! SUPPORT. What decoding and accepting a request can answer, and when a step is refused; with these the statements that
belong to no single section: reset and the host's moves, the operation codes, the characters of a digit, ChecksumMismatch and
the status codes. -/

namespace Sys2Proof.Machine

open Sys2Proof.Safety

/-! ### Operation codes -/

/-- 30 R61, R62: a code up to 0xA selects an operation, which carries that code, and any other is reserved. -/
theorem decode_cases (r : Request) :
    (∃ i, decode r = .ok i ∧ (encode i).op = r.op ∧ r.op.toNat ≤ 0xA) ∨
    (decode r = .error (.reservedOp r.op) ∧ 0xB ≤ r.op.toNat) := by
  unfold decode
  split
  case h_12 =>
    refine .inr ⟨rfl, ?_⟩
    simp only [imp_false] at *
    bv_omega
  all_goals exact .inl ⟨_, rfl, Eq.symm ‹_›, by bv_omega⟩

theorem decode_eq_error_iff (r : Request) (op : BitVec 4) :
    decode r = .error (.reservedOp op) ↔ r.op = op ∧ 0xB ≤ r.op.toNat := by
  obtain ⟨i, hd, -, hle⟩ | ⟨hd, hop⟩ := decode_cases r
  · simp [hd, Nat.not_le.mpr (Nat.lt_succ_of_le hle)]
  · simp [hd, hop]

/-- Settles O17: the two cases of `decode_cases` exclude each other by the code. -/
theorem decodedOperationCarriesTheOpCode : Obligations.DecodedOperationCarriesTheOpCode := by
  intro r
  obtain ⟨i, hd, hcode, hle⟩ | ⟨hd, hop⟩ := decode_cases r
  · simp [hd, hcode, hle]
  · simp [hd, Nat.not_le.mpr hop]

/-- Settles O14: each code selects its own row of `decode`. -/
theorem opCodesSelectTheirOperations : Obligations.OpCodesSelectTheirOperations :=
  fun _ => ⟨rfl, rfl, rfl, rfl, rfl, rfl, rfl, rfl, rfl, rfl, rfl⟩

/-- Settles O15: the words' rows of `decode`, on blank operands. -/
theorem sampleTableWordsDecode : Obligations.SampleTableWordsDecode :=
  ⟨rfl, rfl, rfl, rfl, rfl⟩

/-! ### When a step is refused -/

theorem stepWith_of_accept_error {bound : InLenBound} {s : State} {r : Request} {rest : List HostEvent} {e : Refusal}
    (hp : s.pending = .issue r :: rest) (ha : accept bound r = .error e) : stepWith bound s = .refused e := by
  simp [stepWith, fetchWith, hp, ha]

/-- A step is refused only where the next move issues a request the bound does not accept. -/
theorem accept_error_of_stepWith_refused {bound : InLenBound} {s : State} {e : Refusal}
    (h : stepWith bound s = .refused e) :
    ∃ r rest, s.pending = .issue r :: rest ∧ accept bound r = .error e := by
  obtain ⟨-, hf⟩ | ⟨rest, -, hf⟩ | ⟨r, rest, e', hp, ha, hf⟩ | ⟨r, rest, i, -, -, hf⟩ := fetchWith_cases bound s
  · simp [stepWith, hf] at h
  · simp [stepWith, hf] at h
  · obtain rfl : e' = e := by simpa [stepWith, hf] using h
    exact ⟨r, rest, hp, ha⟩
  · simp [stepWith, hf, exec_next] at h

/-- 00 R4: the operations a MAX_IN_LEN of `n` shuts out. -/
theorem wellFormed_some_eq_false_iff (n : Nat) (i : Instr) :
    i.wellFormed (some n) = false ↔
      ∃ t : List Byte, (i = .dec t ∨ i = .fchk t ∨ i = .bs2h t ∨ i = .hs2b t) ∧ n < t.length := by
  cases i with
  | bs2h t | hs2b t | fchk t | dec t => simp [Instr.wellFormed, InLenBound.admits]
  | b2h | h2b | lchk | lpack | lunpk | rtncls | enc => simp [Instr.wellFormed]

/-- The unbounded MAX_IN_LEN shuts out no operation. -/
theorem wellFormed_none (i : Instr) : i.wellFormed none = true := by
  cases i <;> rfl

theorem accept_of_reserved (bound : InLenBound) {r : Request} (h : 0xB ≤ r.op.toNat) :
    accept bound r = .error (.reservedOp r.op) := by
  simp [accept, (decode_eq_error_iff r r.op).mpr ⟨rfl, h⟩]

theorem accept_of_not_wellFormed {bound : InLenBound} {r : Request} {i : Instr} (hd : decode r = .ok i)
    (hw : i.wellFormed bound = false) : accept bound r = .error .inputTooLong := by
  simp [accept, hd, hw]

theorem accept_none_eq_error {r : Request} {e : Refusal} (h : accept none r = .error e) :
    0xB ≤ r.op.toNat ∧ e = .reservedOp r.op := by
  obtain ⟨op, hd, ha⟩ | ⟨i, -, -, ha⟩ | ⟨i, -, hw, -⟩ := accept_cases none r
  · obtain ⟨rfl, hop⟩ := (decode_eq_error_iff r op).mp hd
    exact ⟨hop, by simpa [ha] using h.symm⟩
  · simp [ha] at h
  · simp [wellFormed_none] at hw

/-- Settles O4: a decoded request is refused for its length or runs, as its operation exceeds the bound or not. -/
theorem inputsBeyondMaxInLenAreRefused : Obligations.InputsBeyondMaxInLenAreRefused := by
  intro n s r rest i hp hd
  rw [← wellFormed_some_eq_false_iff, Bool.not_eq_false]
  exact ⟨fun hlong => stepWith_of_accept_error hp (accept_of_not_wellFormed hd hlong), stepWith_of_wellFormed hp hd⟩

/-- Settles O5: a reserved code is refused before any operand is looked at. -/
theorem reservedOpCodesAreRefused : Obligations.ReservedOpCodesAreRefused :=
  fun bound _ _ _ hp hop => stepWith_of_accept_error hp (accept_of_reserved bound hop)

/-- Settles O7: `Fault` has no constructor, and the unbounded model accepts every request with a code that is not reserved. -/
theorem stepStopsOnlyOnReservedOpCodes : Obligations.StepStopsOnlyOnReservedOpCodes := by
  intro s
  constructor
  · intro f
    cases f
  · intro e h
    obtain ⟨r, rest, hp, ha⟩ := accept_error_of_stepWith_refused h
    exact ⟨r, rest, hp, accept_none_eq_error ha⟩

/-! ### The host's moves -/

/-- Settles O6: the three cases of `stepWith_next_cases`; an operation's response is `responseOf`. -/
theorem stepTakesOneMoveInOrder : Obligations.StepTakesOneMoveInOrder := by
  intro bound s t h
  obtain hidle | ⟨rest, hp, rfl⟩ | ⟨q, rest, i, hp, -, -, rfl⟩ := stepWith_next_cases h
  · exact .inl hidle
  · exact .inr (.inl ⟨rest, hp, rfl, rfl⟩)
  · exact .inr (.inr ⟨q, rest, responseOf i, hp, rfl, rfl⟩)

/-- Settles O3: `step` is `stepWith` at the unbounded value. -/
theorem stepRunsTheDecodedOperation : Obligations.StepRunsTheDecodedOperation :=
  fun _ _ _ _ => stepWith_of_wellFormed

/-- Settles O1: `State.reset` has empty lists, and with no move pending a step is idle. -/
theorem resetLeavesTheBlockIdle : Obligations.ResetLeavesTheBlockIdle :=
  ⟨reset_pending, reset_delivered, fun bound _ => stepWith_of_idle bound⟩

/-- Settles O2: `stepWith_of_reset`, for every MAX_IN_LEN. -/
theorem resetMoveHasNoEffect : Obligations.ResetMoveHasNoEffect :=
  fun bound _ _ => stepWith_of_reset bound

/-- Settles O12: the base case of `stepKeepsDeliveredSound`. -/
theorem resetIsDeliveredSound : Obligations.ResetIsDeliveredSound := by
  intro r hr
  simp at hr

/-! ### The characters of a digit -/

/-- Settles O18: the sixteen entries of HEXLUT against their ASCII codes. -/
theorem hexTableHoldsAsciiDigits : Obligations.HexTableHoldsAsciiDigits :=
  ⟨rfl, by decide⟩

theorem char2nib_nib2char (n : Nibble) : char2nib (nib2char n) = .ok n := by
  rw [nib2char_eq_hexChar, char2nib_eq, digitOf_hexChar _ n.isLt]
  simp only [BitVec.ofNat_toNat, BitVec.setWidth_eq]

/-- Settles O20: `char2nib` reads `digitOf`, which is the index of each HEXLUT character. -/
theorem charactersReadAsDigits : Obligations.CharactersReadAsDigits :=
  ⟨char2nib_eq, char2nib_nib2char⟩

/-! ### ChecksumMismatch -/

theorem chksumGood_eq_false_iff (frame : List Byte) :
    chksumGood frame = false ↔
      (frame.drop (frame.length - 5)).take 4 ≠ (fourChars (fchkNat (regionOf frame))).toList :=
  beq_eq_false_iff_ne

/-- Settles O47: step 4 of DEC, of a kind in no other operation's row. -/
theorem checksumMismatchExactlyOnOtherText : Obligations.ChecksumMismatchExactlyOnOtherText := by
  intro i s
  rw [exec_eq_error_iff_of_decOnly (by decide)]
  simp only [DecFails, chksumGood_eq_false_iff]

/-! ### Status codes -/

/-- The statuses of 60 R151, in its order. -/
def statuses : List Status :=
  [.ok, .failed .versionError, .failed .checksumError, .failed .lengthChecksumError, .failed .invalidCid2,
   .failed .commandFormatError, .failed .dataInvalid, .failed .asciiError, .failed .otherError,
   .failed .invalidHexCharacter, .failed .oddLengthHex, .failed .frameTooShort, .failed .invalidDelimiters,
   .failed .checksumMismatch, .failed .malformedFrame, .failed .lChecksumMismatch, .failed .frameLengthMismatch,
   .failed .infoTooLarge]

/-- The status a code of 60 R151 stands for. -/
def statusOfCode (code : BitVec 5) : Option Status := statuses.find? fun st => statusCode st == code

theorem statusOfCode_statusCode (st : Status) : statusOfCode (statusCode st) = some st := by
  cases st with
  | ok => rfl
  | failed kind => cases kind <;> rfl

/-- Settles O53: the table row by row; a status is read back from its code, so no two share one. -/
theorem statusCodesFollowTheTable : Obligations.StatusCodesFollowTheTable := by
  refine ⟨by decide, fun a b h => ?_⟩
  have hread : some a = some b := by rw [← statusOfCode_statusCode a, h, statusOfCode_statusCode]
  exact Option.some.inj hread

end Sys2Proof.Machine
end
